-- ==== Sys2Proof/Word.lean ====
section
/-! DEFINITION. The two widths of the machine: a byte is 8 bits, and every register value, memory word and address
is a word of 32 bits (spec/00_scope.md R8). The signed reading `s(v)` is `BitVec.toInt`, the unsigned reading `u(v)` is
`BitVec.toNat` (two's complement, G1 of spec/93_implementation_defined.md). -/

namespace Sys2Proof

/-- A byte, 8 bits (R8). -/
abbrev Byte := BitVec 8

/-- A word, 32 bits (R8). -/
abbrev Word := BitVec 32

end Sys2Proof
end

