-- ==== Sys2Proof/Syntax.lean ====
section
/-! DEFINITION. The register names, the opcodes, the four bytes of an instruction, and the instruction values
(spec/10_state.md R21, spec/30_encoding.md R91, R100, R101). -/

namespace Sys2Proof

/-- The closed enumeration of the 11 registers (R21). -/
inductive RegName where
  | zero
  | save1 | save2 | save3 | save4
  | call1 | call2 | call3 | call4
  | programCounter
  | stackPointer
deriving DecidableEq, Repr

/-- The closed set of 17 opcodes (R100). -/
inductive Opcode where
  | addI | subI | mulI | divI
  | addN | subN | mulN | divN
  | loadI | storeI
  | setILow | setIHigh
  | jump | jumpZero | jumpGT
  | endRun
  | sysCall
deriving DecidableEq, Repr

/-- The four bytes of an instruction, in ascending address order (R91). -/
structure RawInstr where
  b0 : Byte
  b1 : Byte
  b2 : Byte
  b3 : Byte
deriving DecidableEq, Repr

/-- An instruction value: the opcode and its own operand fields only (R101), in the operand order of R100. The immediates
are the signed numbers the fields stand for (R95, R96); `Instr.wellFormed` says their ranges. -/
inductive Instr where
  /-- `AddI RD, R1, R2` -/
  | addI (rd r1 r2 : RegName)
  /-- `SubI RD, R1, R2` -/
  | subI (rd r1 r2 : RegName)
  /-- `MulI RD, R1, R2` -/
  | mulI (rd r1 r2 : RegName)
  /-- `DivI RD, R1, R2` -/
  | divI (rd r1 r2 : RegName)
  /-- `AddN RD, R1, imm8` -/
  | addN (rd r1 : RegName) (imm8 : Int)
  /-- `SubN RD, R1, imm8` -/
  | subN (rd r1 : RegName) (imm8 : Int)
  /-- `MulN RD, R1, imm8` -/
  | mulN (rd r1 : RegName) (imm8 : Int)
  /-- `DivN RD, R1, imm8` -/
  | divN (rd r1 : RegName) (imm8 : Int)
  /-- `LoadI RD, RA, off8` -/
  | loadI (rd ra : RegName) (off8 : Int)
  /-- `StoreI R1, RA, off8` -/
  | storeI (r1 ra : RegName) (off8 : Int)
  /-- `SetILow RD, imm16` -/
  | setILow (rd : RegName) (imm16 : Int)
  /-- `SetIHigh RD, imm16` -/
  | setIHigh (rd : RegName) (imm16 : Int)
  /-- `Jump RA, off16` -/
  | jump (ra : RegName) (off16 : Int)
  /-- `JumpZero RC, RA, off8` -/
  | jumpZero (rc ra : RegName) (off8 : Int)
  /-- `JumpGT RC, RA, off8` -/
  | jumpGT (rc ra : RegName) (off8 : Int)
  /-- `End Rout` -/
  | endRun (rout : RegName)
  /-- `SysCall` -/
  | sysCall
deriving DecidableEq, Repr

end Sys2Proof
end

