-- ==== Sys2Proof/WellFormed.lean ====
section
/-! DEFINITION. Which instruction terms are instruction values: the immediate lies in the range of its field
(spec/30_encoding.md R95, R96, R101). Register fields need no check: `RegName` has the 11 registers only (R94). -/

namespace Sys2Proof

/-- The range of `imm8` and `off8`: −128 .. 127 (R95). -/
def imm8InRange (n : Int) : Bool := decide (-128 ≤ n) && decide (n ≤ 127)

/-- The range of `imm16` and `off16`: −32768 .. 32767 (R96). -/
def imm16InRange (n : Int) : Bool := decide (-32768 ≤ n) && decide (n ≤ 32767)

/-- The instruction term is an instruction value of R101. -/
def Instr.wellFormed : Instr → Bool
  | .addI _ _ _ => true
  | .subI _ _ _ => true
  | .mulI _ _ _ => true
  | .divI _ _ _ => true
  | .addN _ _ n => imm8InRange n
  | .subN _ _ n => imm8InRange n
  | .mulN _ _ n => imm8InRange n
  | .divN _ _ n => imm8InRange n
  | .loadI _ _ n => imm8InRange n
  | .storeI _ _ n => imm8InRange n
  | .setILow _ n => imm16InRange n
  | .setIHigh _ n => imm16InRange n
  | .jump _ n => imm16InRange n
  | .jumpZero _ _ n => imm8InRange n
  | .jumpGT _ _ n => imm8InRange n
  | .endRun _ => true
  | .sysCall => true

end Sys2Proof
end

