-- ==== Sys2Proof/Decode.lean ====
section
/-! DEFINITION. The instruction codec (spec/30_encoding.md): the numbering table, the decoder (R106 to R109), and after it the
encoder (R105). The decoder is total on any four bytes and rejects by name; the step turns each rejection into
`IllegalInstruction` (R107, R108). -/

namespace Sys2Proof

/-! The configuration table of D1 and D2 (notes/assumptions/15.md). -/

/-- The register numbers (spec/10_state.md R21, D1). -/
def registerNumbering : List (RegName × Byte) :=
  [(.zero, 0), (.save1, 1), (.save2, 2), (.save3, 3), (.save4, 4), (.call1, 5), (.call2, 6), (.call3, 7),
   (.call4, 8), (.programCounter, 9), (.stackPointer, 10)]

/-- The opcode numbers (R100, D2). -/
def opcodeNumbering : List (Opcode × Byte) :=
  [(.addI, 0x00), (.subI, 0x01), (.mulI, 0x02), (.divI, 0x03), (.addN, 0x04), (.subN, 0x05), (.mulN, 0x06),
   (.divN, 0x07), (.loadI, 0x08), (.storeI, 0x09), (.setILow, 0x0A), (.setIHigh, 0x0B), (.jump, 0x0C),
   (.jumpZero, 0x0D), (.jumpGT, 0x0E), (.endRun, 0x0F), (.sysCall, 0x10)]

/-- The number of a register, from the table. -/
def registerByte (r : RegName) : Byte := (registerNumbering.lookup r).getD 0

/-- The number of an opcode, from the table. -/
def opcodeByte (op : Opcode) : Byte := (opcodeNumbering.lookup op).getD 0

/-- The register a byte names, if it names one (R94). -/
def registerOfByte (b : Byte) : Option RegName := (registerNumbering.find? fun e => e.2 == b).map Prod.fst

/-- The opcode a byte names, if it names one (R100). -/
def opcodeOfByte (b : Byte) : Option Opcode := (opcodeNumbering.find? fun e => e.2 == b).map Prod.fst

/-! The decoder. -/

/-- Why four bytes are no instruction. -/
inductive DecodeError where
  /-- An undecodable opcode byte (R107). -/
  | unknownOpcode (b : Byte)
  /-- A byte in a register position that names no register (R108). -/
  | unknownRegister (b : Byte)
deriving DecidableEq, Repr

/-- One register field (R94, R108). -/
def decodeRegister (b : Byte) : Except DecodeError RegName :=
  match registerOfByte b with
  | some r => .ok r
  | none => .error (.unknownRegister b)

/-- `imm8`: the signed reading of the byte (R95). -/
def decodeImm8 (b3 : Byte) : Int := b3.toInt

/-- `imm16`: the signed reading of `b3 ++ b2`, `b2` the low byte (R96). -/
def decodeImm16 (b2 b3 : Byte) : Int := (b3 ++ b2 : BitVec 16).toInt

/-- Format `RRR` (R93). -/
def decodeRRR (make : RegName → RegName → RegName → Instr) (raw : RawInstr) : Except DecodeError Instr :=
  (decodeRegister raw.b1).bind fun ra => (decodeRegister raw.b2).bind fun rb => (decodeRegister raw.b3).map fun rc =>
    make ra rb rc

/-- Format `RRI` (R93). -/
def decodeRRI (make : RegName → RegName → Int → Instr) (raw : RawInstr) : Except DecodeError Instr :=
  (decodeRegister raw.b1).bind fun ra => (decodeRegister raw.b2).map fun rb => make ra rb (decodeImm8 raw.b3)

/-- Format `RI16` (R93). -/
def decodeRI16 (make : RegName → Int → Instr) (raw : RawInstr) : Except DecodeError Instr :=
  (decodeRegister raw.b1).map fun ra => make ra (decodeImm16 raw.b2 raw.b3)

/-- Format `R` (R93): `b2` and `b3` are ignored (R109). -/
def decodeR (make : RegName → Instr) (raw : RawInstr) : Except DecodeError Instr :=
  (decodeRegister raw.b1).map make

/-- The fields of an instruction whose opcode is known (R93, R100). -/
def decodeFields (op : Opcode) (raw : RawInstr) : Except DecodeError Instr :=
  match op with
  | .addI => decodeRRR .addI raw
  | .subI => decodeRRR .subI raw
  | .mulI => decodeRRR .mulI raw
  | .divI => decodeRRR .divI raw
  | .addN => decodeRRI .addN raw
  | .subN => decodeRRI .subN raw
  | .mulN => decodeRRI .mulN raw
  | .divN => decodeRRI .divN raw
  | .loadI => decodeRRI .loadI raw
  | .storeI => decodeRRI .storeI raw
  | .setILow => decodeRI16 .setILow raw
  | .setIHigh => decodeRI16 .setIHigh raw
  | .jump => decodeRI16 .jump raw
  | .jumpZero => decodeRRI .jumpZero raw
  | .jumpGT => decodeRRI .jumpGT raw
  | .endRun => decodeR .endRun raw
  | .sysCall => .ok .sysCall

/-- `decode` of R106, total on every four bytes. The fetch address of R106 goes only into the fault's payload; the step adds it. -/
def decode (raw : RawInstr) : Except DecodeError Instr :=
  match opcodeOfByte raw.b0 with
  | none => .error (.unknownOpcode raw.b0)
  | some op => decodeFields op raw

/-! The encoder. -/

/-- Format `RRR` (R93). -/
def encodeRRR (op : Opcode) (ra rb rc : RegName) : RawInstr :=
  ⟨opcodeByte op, registerByte ra, registerByte rb, registerByte rc⟩

/-- Format `RRI`: the immediate as its two's-complement byte (R105). -/
def encodeRRI (op : Opcode) (ra rb : RegName) (imm8 : Int) : RawInstr :=
  ⟨opcodeByte op, registerByte ra, registerByte rb, BitVec.ofInt 8 imm8⟩

/-- Format `RI16`: the immediate as its two's-complement 16 bits, the low byte in `b2` (R105). -/
def encodeRI16 (op : Opcode) (ra : RegName) (imm16 : Int) : RawInstr :=
  ⟨opcodeByte op, registerByte ra, (BitVec.ofInt 16 imm16).extractLsb' 0 8, (BitVec.ofInt 16 imm16).extractLsb' 8 8⟩

/-- `encode` of R105; every ignored byte is 0 (D4). -/
def encode : Instr → RawInstr
  | .addI rd r1 r2 => encodeRRR .addI rd r1 r2
  | .subI rd r1 r2 => encodeRRR .subI rd r1 r2
  | .mulI rd r1 r2 => encodeRRR .mulI rd r1 r2
  | .divI rd r1 r2 => encodeRRR .divI rd r1 r2
  | .addN rd r1 n => encodeRRI .addN rd r1 n
  | .subN rd r1 n => encodeRRI .subN rd r1 n
  | .mulN rd r1 n => encodeRRI .mulN rd r1 n
  | .divN rd r1 n => encodeRRI .divN rd r1 n
  | .loadI rd ra n => encodeRRI .loadI rd ra n
  | .storeI r1 ra n => encodeRRI .storeI r1 ra n
  | .setILow rd n => encodeRI16 .setILow rd n
  | .setIHigh rd n => encodeRI16 .setIHigh rd n
  | .jump ra n => encodeRI16 .jump ra n
  | .jumpZero rc ra n => encodeRRI .jumpZero rc ra n
  | .jumpGT rc ra n => encodeRRI .jumpGT rc ra n
  | .endRun rout => ⟨opcodeByte .endRun, registerByte rout, 0, 0⟩
  | .sysCall => ⟨opcodeByte .sysCall, 0, 0, 0⟩

/-! The instruction word (R92) and the host's numbering of an instruction's bits. -/

/-- The instruction word `W = b3 ++ b2 ++ b1 ++ b0` (R92). -/
def RawInstr.word (raw : RawInstr) : Word := raw.b3 ++ raw.b2 ++ raw.b1 ++ raw.b0

/-- The four bytes whose little-endian reading is `w` (R92): bit 0 of `w` is the lowest bit of `b0`. -/
def rawOfNat (w : Nat) : RawInstr :=
  ⟨BitVec.ofNat 8 w, BitVec.ofNat 8 (w / 2 ^ 8), BitVec.ofNat 8 (w / 2 ^ 16), BitVec.ofNat 8 (w / 2 ^ 24)⟩

/-- The four bytes of an instruction whose low `nbits` bits are `w` and whose other bits are 0. -/
def rawOfTableWord (nbits w : Nat) : RawInstr := rawOfNat (w % 2 ^ nbits)

/-- The instruction the decoder reads from the table's word, for the host. -/
def decodeTableWord (nbits w : Nat) : Option Instr :=
  match decode (rawOfTableWord nbits w) with
  | .ok i => some i
  | .error _ => none

end Sys2Proof
end

