-- ==== Sys2Proof/Machine/Operands.lean ====
section
/-! DEFINITION. The value side of every operand form and every result (spec/00_scope.md R8, R9): wrapping, extension of the
immediates, the base-plus-scaled-offset sum, and the arithmetic laws of spec/41_arith_reg.md R155. -/

namespace Sys2Proof.Machine

/-- `wrap32(n)` (R8). -/
def wrap32 (n : Int) : Word := BitVec.ofInt 32 n

/-- `sext_32` of a signed 8-bit or 16-bit field, given as the number it stands for (R9, R95, R96). -/
def sext32 (imm : Int) : Word := wrap32 imm

/-- `zext_32(imm16[15:0])` (R9, spec/44_set_imm.md R183, D11). -/
def zext16 (imm16 : Int) : Word := (BitVec.ofInt 16 imm16).setWidth 32

/-- `wrap32(s(a) + s(b))` (R150, R160). -/
def addWord (a b : Word) : Word := wrap32 (a.toInt + b.toInt)

/-- `wrap32(s(a) - s(b))` (R151, R161). -/
def subWord (a b : Word) : Word := wrap32 (a.toInt - b.toInt)

/-- `wrap32(s(a) * s(b))` (R152, R162). -/
def mulWord (a b : Word) : Word := wrap32 (a.toInt * b.toInt)

/-- `sdiv(n, d)`: the quotient truncated toward zero, wrapped (R155, D10). The divide opcodes test `d = 0` before. -/
def sdivWord (n d : Word) : Word := wrap32 (Int.tdiv n.toInt d.toInt)

/-- `wrap32(s(base) + 4 * s(sext_32(off)))`: the effective address of a load or store (spec/43_load_store.md R172) and the target
of a jump (spec/45_control.md R193). DESIGN CHOICE (notes/assumptions/20.md): where the exact sum is below -2^31, the formula of R65 wraps
to an address at the top of the range, which may be valid, while R65's derived sentence and D12's reason say that such a sum faults.
The formula is followed. -/
def scaledAddress (base : Word) (off : Int) : Word := wrap32 (base.toInt + 4 * (sext32 off).toInt)

end Sys2Proof.Machine
end

