-- ==== Sys2Proof/Config.lean ====
section
/-! DEFINITION. The construction parameters of the machine (spec/00_scope.md R6) and what the syscall handler, one of
them, can do to it (spec/47_syscall.md R211 to R218). The parameters are set at construction and never change. The numbering of
registers and opcodes (decisions D1, D2) is the one table at the head of Sys2Proof/Decode.lean. -/

namespace Sys2Proof

/-- `TOPOLOGY` (R6): one array for code and data (spec/20_memory.md R51), or a read-only instruction array beside the
data array (R52). -/
inductive Topology where
  | unified
  | segregated
deriving DecidableEq, Repr

/-- `TERM_MODE` (R6, spec/40_interpreter_cycle.md R136). -/
inductive TermMode where
  | endInstr
  | runOffEnd
deriving DecidableEq, Repr

/-- One access a handler makes, through the accessors of R211 and no other way: the two register accessors and the four
operations of the memory interface (spec/20_memory.md R59). -/
inductive HandlerOp where
  | readReg (r : RegName)
  | writeReg (r : RegName) (v : Word)
  | readWord (a : Word)
  | writeWord (a v : Word)
  | fetchInstruction (a : Word)
  | hasNextInstruction (a : Word)
deriving DecidableEq, Repr

/-- How a handler that ends comes to its end by itself: it returns (R213), or it does not recognise the identifier in `Call1` (R216). -/
inductive HandlerEnd where
  | returns
  | unknownSysCall
deriving DecidableEq, Repr, Inhabited

/-- One handler invocation that ends: the accesses it makes, in its own order, and its end. A failed access ends it
earlier (R214, D17). -/
structure HandlerRun where
  ops : List HandlerOp
  ending : HandlerEnd
deriving DecidableEq, Repr, Inhabited

/-- The outcome of one handler invocation: it ends, or it never returns (R218, U15). -/
inductive Invocation where
  | finishes (run : HandlerRun)
  | never
deriving DecidableEq, Repr

/-- FREE VALUE (notes/assumptions/2.md, DESIGN CHOICE): what `HANDLER` does on invocation number `call`, given what the
accessors show it: the registers, the readable words of the data array, the fetchable instructions, and
`hasNextInstruction` (R211). It has no body: U8 of spec/93_implementation_defined.md says "any value", so nothing may be
proved of it but what holds for every handler. -/
opaque Config.handler (call : Nat) (x : RegName → Word) (readWord : Word → Option Word)
    (fetchInstruction : Word → Option RawInstr) (hasNextInstruction : Word → Bool) : HandlerRun

/-- The largest legal `MEM_SIZE` and `ILEN`, 2^31 - 1 (spec/20_memory.md R53, D12). -/
def Config.maxSize : Nat := 2147483647

/-- The construction parameters as the host gives them (R6). `memInit = none` is the default, all zero (D6). -/
structure Params where
  topology : Topology
  memSize : Nat
  imem : Option (List Byte)
  termMode : TermMode
  resultReg : RegName
  memInit : Option (List Byte)
  handlerRuns : List Invocation
deriving DecidableEq, Repr

/-- Why the construction interface rejects a configuration (U14 of spec/93_implementation_defined.md). -/
inductive ConfigError where
  /-- `MEM_SIZE` above 2^31 - 1 (R53). -/
  | memSizeTooLarge
  /-- `ILEN` above 2^31 - 1 (R53). -/
  | imemTooLarge
  /-- `IMEM` given in `Unified` (U14). -/
  | imemInUnified
  /-- `IMEM` missing in `Segregated`, whose instruction array is "supplied at construction" (R52). -/
  | imemMissing
  /-- `MEM_INIT` of another length than `MEM_SIZE` (R6, U14). -/
  | memInitLength
deriving DecidableEq, Repr

end Sys2Proof
end

