-- ==== Sys2Proof/Machine/State.lean ====
section
/-! DEFINITION. The state of one machine instance as plain data (spec/10_state.md R20), the reasons a step stops, and the
state after reset (spec/70_reset_and_hazards.md R280). -/

namespace Sys2Proof.Machine

/-- The ten stored registers, each under its own name (R21). `Zero` has no storage. -/
structure RegFile where
  save1 : Word
  save2 : Word
  save3 : Word
  save4 : Word
  call1 : Word
  call2 : Word
  call3 : Word
  call4 : Word
  programCounter : Word
  stackPointer : Word
deriving DecidableEq, Repr

/-- A byte array of `size` bytes (spec/20_memory.md R50, R53): its bytes that are not 0, as (address, byte) pairs with
addresses strictly rising. `Memory.wf` (Machine/Ops.lean) says the form. -/
structure Memory where
  size : Nat
  cells : List Host.Cell
deriving DecidableEq, Repr

/-- The seven fault kinds with their payloads (spec/60_exceptions.md R230). These are the machine's own faults, which the
run state records (R245); the type `Fault` below says why no step applies. -/
inductive FaultKind where
  /-- Undecodable opcode byte or register byte; the four bytes and the fetch address. -/
  | illegalInstruction (raw : RawInstr) (addr : Word)
  /-- A refused write to `ProgramCounter`; the refused value. -/
  | illegalPC (v : Word)
  /-- A write to `Zero`. -/
  | illegalOperation
  /-- An address outside the array; the address and the array's size. -/
  | memoryOutOfRange (addr : Word) (size : Nat)
  /-- An in-range address that is no multiple of 4. -/
  | memoryAlignment (addr : Word)
  /-- An identifier the handler does not recognise. -/
  | unknownSysCall (id : Word)
  /-- A divide opcode with divisor 0. -/
  | arithmeticFault
deriving DecidableEq, Repr

/-- The run state (R35). -/
inductive RunState where
  | running
  | halted (result : Word)
  | faulted (kind : FaultKind)
deriving DecidableEq, Repr

/-- The state of one machine instance. `regs`, `mem`, `imem` and `run` are the spec's state (R20); `topology`, `termMode`
and `resultReg` are its constant parameters (spec/00_scope.md R6, notes/assumptions/3.md); `handlerRuns` and `sysCalls` are
the model's own fields and stand for `HANDLER` (notes/assumptions/1.md and 2.md). `MEM_SIZE` is `mem.size` and `ILEN` is `imem.size`. -/
structure State where
  /-- The registers (R21). -/
  regs : RegFile
  /-- The mutable array: the one array of `Unified`, the data array of `Segregated` (R51, R52). -/
  mem : Memory
  /-- The instruction array of `Segregated` (R52); the empty array in `Unified` (notes/assumptions/13.md). -/
  imem : Memory
  /-- The run state (R35). -/
  run : RunState
  topology : Topology
  termMode : TermMode
  resultReg : RegName
  /-- The outcomes of the coming handler invocations that are fixed in advance, the next one first. -/
  handlerRuns : List Invocation
  /-- How many handler invocations have begun; `Config.handler` is applied to it. -/
  sysCalls : Nat
deriving DecidableEq, Repr

/-- Why a step has no next state. These are not the machine's fault kinds: a step that raises one of those HAS a next state,
whose run state records it (R245, notes/assumptions/6.md). -/
inductive Fault where
  /-- `step` raises it in `Halted(result)`: no step applies there (R35, U16; notes/assumptions/7.md). Safe: the machine has no next state either. -/
  | alreadyHalted (result : Word)
  /-- `step` raises it in `Faulted(kind, info)`: no step applies there (R35, R247, U16; notes/assumptions/7.md). Safe, as above. -/
  | alreadyFaulted (kind : FaultKind)
  /-- `SysCall` raises it when the handler never returns (spec/47_syscall.md R218, U15 `stuck`; notes/assumptions/8.md). Safe: the
  step has no end state on the machine either. -/
  | handlerNeverReturns
deriving DecidableEq, Repr

/-- Why an instruction has no meaning in the model. -/
inductive Refusal where
  /-- An arm of `exec` that is not modelled yet would raise it, by the table's mnemonic; no arm does. Safe. -/
  | notModelled (mnemonic : String)
deriving DecidableEq, Repr

/-- Right after reset (R280, R40): every register 0, `Running`. The open parameters have the values of
notes/assumptions/4.md: `Segregated`, `MEM_SIZE` 2^31 - 1 with `MEM_INIT` all zero, `IMEM` empty, `EndInstr`, `Call1`,
no handler outcome fixed in advance. `State.construct` (Machine/Construct.lean) gives the reset state for any parameters. -/
def State.reset : State where
  regs := ⟨0, 0, 0, 0, 0, 0, 0, 0, 0, 0⟩
  mem := ⟨2147483647, []⟩
  imem := ⟨0, []⟩
  run := .running
  topology := .segregated
  termMode := .endInstr
  resultReg := .call1
  handlerRuns := []
  sysCalls := 0

end Sys2Proof.Machine
end

