-- ==== Sys2Proof/Machine/Ops.lean ====
section
/-! DEFINITION. The named operations over registers, memory and the run state that every instruction is built from
(spec/00_scope.md R10): register access through its policy, the memory unit's four operations, raising a fault, halting, the
default advance, and the end of a step's stages 3 and 4. -/

namespace Sys2Proof.Machine

/-! Byte arrays (spec/20_memory.md R50). -/

/-- What a byte that is not listed reads as: 0, the spec's default of `MEM_INIT` (D6; notes/assumptions/5.md). -/
def fillByte : Byte := 0

/-- One byte of a cell list. -/
def readCells : List Host.Cell → Nat → Byte
  | [], _ => fillByte
  | (k, v) :: rest, a => if k = a then v else readCells rest a

/-- One byte written into a cell list, which keeps its addresses rising and lists no `fillByte`. -/
def writeCells : List Host.Cell → Nat → Byte → List Host.Cell
  | [], a, v => if v = fillByte then [] else [(a, v)]
  | (k, w) :: rest, a, v =>
    if a < k then (if v = fillByte then (k, w) :: rest else (a, v) :: (k, w) :: rest)
    else if a = k then (if v = fillByte then rest else (a, v) :: rest)
    else (k, w) :: writeCells rest a v

/-- Addresses rise strictly from `low` on and stay below `size`, and no entry is `fillByte`. -/
def cellsWf (size : Nat) : Nat → List Host.Cell → Bool
  | _, [] => true
  | low, (k, v) :: rest => decide (low ≤ k) && decide (k < size) && decide (v ≠ fillByte) && cellsWf size (k + 1) rest

/-- The canonical form of a byte array, and the legal size (R53, D12). -/
def Memory.wf (m : Memory) : Bool := decide (m.size ≤ Config.maxSize) && cellsWf m.size 0 m.cells

/-- The byte at index `a`. -/
def Memory.readByte (m : Memory) (a : Nat) : Byte := readCells m.cells a

/-- The array with the byte at index `a` replaced. -/
def Memory.writeByte (m : Memory) (a : Nat) (v : Byte) : Memory := ⟨m.size, writeCells m.cells a v⟩

/-- The empty array. -/
def Memory.empty : Memory := ⟨0, []⟩

/-- The cells of a byte string laid from index `at_` on. -/
def cellsOfBytes (at_ : Nat) : List Byte → List Host.Cell
  | [] => []
  | b :: rest => if b = fillByte then cellsOfBytes (at_ + 1) rest else (at_, b) :: cellsOfBytes (at_ + 1) rest

/-- The byte array that holds a byte string. -/
def Memory.ofBytes (bs : List Byte) : Memory := ⟨bs.length, cellsOfBytes 0 bs⟩

/-- `check(a, len)` of R54: bounds first, on integers without wrap, then alignment. -/
def Memory.check (m : Memory) (a : Word) : Except FaultKind Unit :=
  if a.toInt < 0 ∨ a.toInt + 3 > (m.size : Int) - 1 then .error (.memoryOutOfRange a m.size)
  else if a.toNat % 4 ≠ 0 then .error (.memoryAlignment a)
  else .ok ()

/-- The four bytes at `a`, in ascending address order, after the check (R54, R55). -/
def Memory.fetch (m : Memory) (a : Word) : Except FaultKind RawInstr :=
  (m.check a).map fun _ =>
    ⟨m.readByte a.toNat, m.readByte (a.toNat + 1), m.readByte (a.toNat + 2), m.readByte (a.toNat + 3)⟩

/-- The word at `a`, little-endian, after the check (R56, D5). -/
def Memory.readWord (m : Memory) (a : Word) : Except FaultKind Word :=
  (m.check a).map fun _ =>
    m.readByte (a.toNat + 3) ++ m.readByte (a.toNat + 2) ++ m.readByte (a.toNat + 1) ++ m.readByte a.toNat

/-- The array with the word at `a` replaced, little-endian, after the check (R57, D5). -/
def Memory.writeWord (m : Memory) (a v : Word) : Except FaultKind Memory :=
  (m.check a).map fun _ =>
    (((m.writeByte a.toNat (v.extractLsb' 0 8)).writeByte (a.toNat + 1) (v.extractLsb' 8 8)).writeByte
      (a.toNat + 2) (v.extractLsb' 16 8)).writeByte (a.toNat + 3) (v.extractLsb' 24 8)

/-- `HasNext(a)` over one array: the bounds half of the check (R58, D9). -/
def Memory.hasNext (m : Memory) (a : Word) : Bool := decide (0 ≤ a.toInt) && decide (a.toInt + 4 ≤ (m.size : Int))

/-! Registers (spec/10_state.md R24, R25). -/

/-- The stored word of a register; `Zero` has none and reads 0 (R24). -/
def RegFile.get (f : RegFile) (r : RegName) : Word :=
  match r with
  | .zero => 0
  | .save1 => f.save1
  | .save2 => f.save2
  | .save3 => f.save3
  | .save4 => f.save4
  | .call1 => f.call1
  | .call2 => f.call2
  | .call3 => f.call3
  | .call4 => f.call4
  | .programCounter => f.programCounter
  | .stackPointer => f.stackPointer

/-- The register file with a stored word replaced; `Zero` has none. Only `State.writeReg` calls it, after the policy. -/
def RegFile.set (f : RegFile) (r : RegName) (v : Word) : RegFile :=
  match r with
  | .zero => f
  | .save1 => { f with save1 := v }
  | .save2 => { f with save2 := v }
  | .save3 => { f with save3 := v }
  | .save4 => { f with save4 := v }
  | .call1 => { f with call1 := v }
  | .call2 => { f with call2 := v }
  | .call3 => { f with call3 := v }
  | .call4 => { f with call4 := v }
  | .programCounter => { f with programCounter := v }
  | .stackPointer => { f with stackPointer := v }

/-- `x[r]` (R24): never faults, changes nothing. -/
def State.readReg (s : State) (r : RegName) : Word := s.regs.get r

/-- `pc` (R30). -/
def State.pc (s : State) : Word := s.readReg .programCounter

/-- The values `ProgramCounter` accepts: non-negative multiples of 4 (R25). -/
def validPC (v : Word) : Bool := decide (0 ≤ v.toInt) && decide (v.toNat % 4 = 0)

/-- The state with register `r` holding `v`, no policy applied. -/
def State.setReg (s : State) (r : RegName) (v : Word) : State := { s with regs := s.regs.set r v }

/-- `x[r] <- v` through the register's write policy (R25). -/
def State.writeReg (s : State) (r : RegName) (v : Word) : Except FaultKind State :=
  if r = .zero then .error .illegalOperation
  else if r = .programCounter ∧ validPC v = false then .error (.illegalPC v)
  else .ok (s.setReg r v)

/-! The memory interface (R59). -/

/-- The array that instructions are fetched from (R51, R52). -/
def State.instrStore (s : State) : Memory :=
  match s.topology with
  | .unified => s.mem
  | .segregated => s.imem

/-- `fetchInstruction(a)` (R55). -/
def State.fetchInstruction (s : State) (a : Word) : Except FaultKind RawInstr := s.instrStore.fetch a

/-- `readWord(a)`, the spec's `MemRead(a, 4)` (R56). -/
def State.readWord (s : State) (a : Word) : Except FaultKind Word := s.mem.readWord a

/-- `writeWord(a, v)`, the spec's `MemWrite(a, 4, v)` (R57). -/
def State.writeWord (s : State) (a v : Word) : Except FaultKind State :=
  (s.mem.writeWord a v).map fun m => { s with mem := m }

/-- `hasNextInstruction(a)` (R58). -/
def State.hasNextInstruction (s : State) (a : Word) : Bool := s.instrStore.hasNext a

/-! The ends of a step. -/

/-- `raise K(info)`, fault entry: the run state records the fault and nothing else is written (spec/60_exceptions.md R245).
There is no return from it (R247). -/
def State.raise (s : State) (k : FaultKind) : State := { s with run := .faulted k }

/-- `halt(v)` (spec/40_interpreter_cycle.md R138). -/
def State.halt (s : State) (v : Word) : State := { s with run := .halted v }

/-- Stage 4, the default advance: `pc <- wrap32(s(pc) + 4)` through the register's policy (R134, D16). If it faults, what
stage 3 wrote stays (R142). -/
def State.advance (s : State) : State :=
  match s.writeReg .programCounter (wrap32 (s.pc.toInt + 4)) with
  | .ok t => t
  | .error k => s.raise k

/-- The end of a step whose execute stage yields `Next` or a fault: a fault of stage 3 is raised in the state before it, which
has written nothing (R133, R246); otherwise the default advance follows (R130 stage 4). -/
def State.endWithAdvance (s : State) (stage3 : Except FaultKind State) : Host.Outcome State Fault Refusal :=
  match stage3 with
  | .ok t => .next t.advance
  | .error k => .next (s.raise k)

/-- The end of a step whose execute stage yields `Jumped` or a fault: no advance (R130 stage 4). -/
def State.endJumped (s : State) (stage3 : Except FaultKind State) : Host.Outcome State Fault Refusal :=
  match stage3 with
  | .ok t => .next t
  | .error k => .next (s.raise k)

end Sys2Proof.Machine
end

