-- ==== Sys2Proof/Machine/ArithReg.lean ====
section
/-! DEFINITION. Register-register arithmetic: `AddI`, `SubI`, `MulI`, `DivI` (spec/41_arith_reg.md). The left operand is
`R2`, the second listed source, and the right operand is `R1` (R154). -/

namespace Sys2Proof.Machine

/-- Stage 3 of the divide opcodes: the divisor is tested before the destination is written (spec/40_interpreter_cycle.md R133, D13). -/
def State.writeQuotient (s : State) (rd : RegName) (n d : Word) : Except FaultKind State :=
  if d = 0 then .error .arithmeticFault else s.writeReg rd (sdivWord n d)

/-- `AddI RD, R1, R2`: `RD = R2 + R1` (R150). -/
def execAddI (rd r1 r2 : RegName) (s : State) : Host.Outcome State Fault Refusal :=
  s.endWithAdvance (s.writeReg rd (addWord (s.readReg r2) (s.readReg r1)))

/-- `SubI RD, R1, R2`: `RD = R2 - R1` (R151). -/
def execSubI (rd r1 r2 : RegName) (s : State) : Host.Outcome State Fault Refusal :=
  s.endWithAdvance (s.writeReg rd (subWord (s.readReg r2) (s.readReg r1)))

/-- `MulI RD, R1, R2`: `RD = R2 * R1` (R152). -/
def execMulI (rd r1 r2 : RegName) (s : State) : Host.Outcome State Fault Refusal :=
  s.endWithAdvance (s.writeReg rd (mulWord (s.readReg r2) (s.readReg r1)))

/-- `DivI RD, R1, R2`: `RD = R2 / R1`, `R1` the divisor (R153). -/
def execDivI (rd r1 r2 : RegName) (s : State) : Host.Outcome State Fault Refusal :=
  s.endWithAdvance (s.writeQuotient rd (s.readReg r2) (s.readReg r1))

end Sys2Proof.Machine
end

