-- ==== Sys2Proof/Machine/ArithImm.lean ====
section
/-! DEFINITION. Register-immediate arithmetic: `AddN`, `SubN`, `MulN`, `DivN` (spec/42_arith_imm.md). The register is the left
operand, the sign-extended immediate the right one (R164). -/

namespace Sys2Proof.Machine

/-- `AddN RD, R1, imm8`: `RD = R1 + imm8` (R160). -/
def execAddN (rd r1 : RegName) (imm8 : Int) (s : State) : Host.Outcome State Fault Refusal :=
  s.endWithAdvance (s.writeReg rd (addWord (s.readReg r1) (sext32 imm8)))

/-- `SubN RD, R1, imm8`: `RD = R1 - imm8` (R161). -/
def execSubN (rd r1 : RegName) (imm8 : Int) (s : State) : Host.Outcome State Fault Refusal :=
  s.endWithAdvance (s.writeReg rd (subWord (s.readReg r1) (sext32 imm8)))

/-- `MulN RD, R1, imm8`: `RD = R1 * imm8` (R162). -/
def execMulN (rd r1 : RegName) (imm8 : Int) (s : State) : Host.Outcome State Fault Refusal :=
  s.endWithAdvance (s.writeReg rd (mulWord (s.readReg r1) (sext32 imm8)))

/-- `DivN RD, R1, imm8`: `RD = R1 / imm8`, the immediate the divisor (R163). -/
def execDivN (rd r1 : RegName) (imm8 : Int) (s : State) : Host.Outcome State Fault Refusal :=
  s.endWithAdvance (s.writeQuotient rd (s.readReg r1) (sext32 imm8))

end Sys2Proof.Machine
end

