-- ==== Sys2Proof/Machine/Flags.lean ====
section
/-! DEFINITION. The machine has no status flags, condition codes or predicates (spec/10_state.md R34); no instruction sets or
reads one. Its only conditions are the two comparisons of a register with zero (spec/45_control.md R191, R192, R194). -/

namespace Sys2Proof.Machine

/-- `c = 0`, the condition of `JumpZero` (R191). -/
def isZero (c : Word) : Bool := c == 0

/-- `s(c) > 0`, the condition of `JumpGT`: signed, strictly greater (R192). -/
def isPositive (c : Word) : Bool := decide (0 < c.toInt)

end Sys2Proof.Machine
end

