-- ==== Sys2Proof/Machine/Control.lean ====
section
/-! DEFINITION. `Jump`, `JumpZero`, `JumpGT` (spec/45_control.md). The base is any register, and `PC` as base is the address of
the jump itself (R193). A taken jump suppresses the advance. -/

namespace Sys2Proof.Machine

/-- The target of a jump in the state before it (R193). -/
def State.jumpTarget (s : State) (ra : RegName) (off : Int) : Word := scaledAddress (s.readReg ra) off

/-- A taken jump: `pc <- t` through the register's policy, `out = Jumped` (R193). -/
def State.takeJump (s : State) (t : Word) : Host.Outcome State Fault Refusal :=
  s.endJumped (s.writeReg .programCounter t)

/-- A jump not taken: stage 3 does nothing, `out = Next` (R191, R192). -/
def State.skipJump (s : State) : Host.Outcome State Fault Refusal := s.endWithAdvance (.ok s)

/-- `Jump RA, off16` (R190). -/
def execJump (ra : RegName) (off16 : Int) (s : State) : Host.Outcome State Fault Refusal :=
  s.takeJump (s.jumpTarget ra off16)

/-- `JumpZero RC, RA, off8` (R191). -/
def execJumpZero (rc ra : RegName) (off8 : Int) (s : State) : Host.Outcome State Fault Refusal :=
  if isZero (s.readReg rc) then s.takeJump (s.jumpTarget ra off8) else s.skipJump

/-- `JumpGT RC, RA, off8` (R192). -/
def execJumpGT (rc ra : RegName) (off8 : Int) (s : State) : Host.Outcome State Fault Refusal :=
  if isPositive (s.readReg rc) then s.takeJump (s.jumpTarget ra off8) else s.skipJump

end Sys2Proof.Machine
end

