-- ==== Sys2Proof/Machine/Halt.lean ====
section
/-! DEFINITION. `End` (spec/46_end.md). -/

namespace Sys2Proof.Machine

/-- `End Rout`: halts with `x[Rout]`, in both termination modes; `pc` is not advanced (R200, R201). -/
def execEndRun (rout : RegName) (s : State) : Host.Outcome State Fault Refusal := .next (s.halt (s.readReg rout))

end Sys2Proof.Machine
end

