-- ==== Sys2Proof/Machine/LoadStore.lean ====
section
/-! DEFINITION. `LoadI` and `StoreI` (spec/43_load_store.md): one addressing mode, base plus scaled signed offset (R172). -/

namespace Sys2Proof.Machine

/-- The effective address of `LoadI` and `StoreI` in the state before the instruction (R172). -/
def State.effectiveAddress (s : State) (ra : RegName) (off8 : Int) : Word := scaledAddress (s.readReg ra) off8

/-- `LoadI RD, RA, off8`: the memory read comes before the register write (R170). -/
def execLoadI (rd ra : RegName) (off8 : Int) (s : State) : Host.Outcome State Fault Refusal :=
  s.endWithAdvance ((s.readWord (s.effectiveAddress ra off8)).bind fun v => s.writeReg rd v)

/-- `StoreI R1, RA, off8` (R171). -/
def execStoreI (r1 ra : RegName) (off8 : Int) (s : State) : Host.Outcome State Fault Refusal :=
  s.endWithAdvance (s.writeWord (s.effectiveAddress ra off8) (s.readReg r1))

end Sys2Proof.Machine
end

