-- ==== Sys2Proof/Machine/SetImm.lean ====
section
/-! DEFINITION. `SetILow` and `SetIHigh` (spec/44_set_imm.md): both OR into the destination, they do not assign (R182, U3). -/

namespace Sys2Proof.Machine

/-- `SetILow RD, imm16`: the immediate is zero-extended (R180, R183). -/
def execSetILow (rd : RegName) (imm16 : Int) (s : State) : Host.Outcome State Fault Refusal :=
  s.endWithAdvance (s.writeReg rd (s.readReg rd ||| zext16 imm16))

/-- `SetIHigh RD, imm16` (R181). -/
def execSetIHigh (rd : RegName) (imm16 : Int) (s : State) : Host.Outcome State Fault Refusal :=
  s.endWithAdvance (s.writeReg rd (s.readReg rd ||| (zext16 imm16 <<< 16)))

end Sys2Proof.Machine
end

