-- ==== Sys2Proof/Machine/SysCall.lean ====
section
/-! DEFINITION. `SysCall`, the trap to the host's handler (spec/47_syscall.md). Entry saves nothing and changes no mode (R211, R248);
the handler acts through the accessors only (R212); its return is followed by the default advance (R213). -/

namespace Sys2Proof.Machine

/-- One access of a handler, under the same policies and checks as the interpreter's (spec/10_state.md R26, spec/20_memory.md R74).
A read changes nothing; `hasNextInstruction` and a register read never fault. -/
def State.handlerOp (s : State) (op : HandlerOp) : Except FaultKind State :=
  match op with
  | .readReg _ => .ok s
  | .writeReg r v => s.writeReg r v
  | .readWord a => (s.readWord a).map fun _ => s
  | .writeWord a v => s.writeWord a v
  | .fetchInstruction a => (s.fetchInstruction a).map fun _ => s
  | .hasNextInstruction _ => .ok s

/-- The accesses of a handler in order, up to the first that faults: the state they leave, and that fault. Writes made before a
fault stay (R214, D17). -/
def State.handlerOps (s : State) : List HandlerOp → State × Option FaultKind
  | [] => (s, none)
  | op :: rest =>
    match s.handlerOp op with
    | .ok t => t.handlerOps rest
    | .error k => (s, some k)

/-- A whole handler invocation and what follows it: a fault of an access is raised in the state the handler left (R214), an
unrecognised identifier raises `UnknownSysCall(id)` with the identifier the handler was called with (R216,
notes/assumptions/10.md), and a return is followed by the default advance (R213). -/
def State.runHandler (s : State) (r : HandlerRun) : State :=
  match s.handlerOps r.ops with
  | (t, some k) => t.raise k
  | (t, none) =>
    match r.ending with
    | .returns => t.advance
    | .unknownSysCall => t.raise (.unknownSysCall (s.readReg .call1))

/-- An answer of the memory unit as the handler sees it: the value, or that the access faults. -/
def answer {α : Type} (e : Except FaultKind α) : Option α :=
  match e with
  | .ok v => some v
  | .error _ => none

/-- What the free handler does at this invocation, given all that the accessors show of the machine (R211,
notes/assumptions/2.md). -/
def State.freeHandlerRun (s : State) : HandlerRun :=
  Config.handler s.sysCalls s.readReg (fun a => answer (s.readWord a)) (fun a => answer (s.fetchInstruction a))
    s.hasNextInstruction

/-- The state after one more handler invocation has begun, with `rest` still to come. -/
def State.nextInvocation (s : State) (rest : List Invocation) : State :=
  { s with handlerRuns := rest, sysCalls := s.sysCalls + 1 }

/-- `SysCall` (R210): the next outcome fixed in advance, or the free handler's when none is (notes/assumptions/1.md, 2.md). A handler
that never returns leaves the step without an end (R218, U15). -/
def execSysCall (s : State) : Host.Outcome State Fault Refusal :=
  match s.handlerRuns with
  | [] => .next ((s.nextInvocation []).runHandler s.freeHandlerRun)
  | .finishes r :: rest => .next ((s.nextInvocation rest).runHandler r)
  | .never :: _ => .fault .handlerNeverReturns

end Sys2Proof.Machine
end

