-- ==== Sys2Proof/Machine/Dispatch.lean ====
section
/-! DEFINITION. Stages 3 and 4 of the step, one arm per opcode (spec/40_interpreter_cycle.md R133). -/

namespace Sys2Proof.Machine

def exec (i : Instr) (s : State) : Host.Outcome State Fault Refusal :=
  match i with
  | .addI rd r1 r2 => Sys2Proof.Machine.execAddI rd r1 r2 s
  | .subI rd r1 r2 => Sys2Proof.Machine.execSubI rd r1 r2 s
  | .mulI rd r1 r2 => Sys2Proof.Machine.execMulI rd r1 r2 s
  | .divI rd r1 r2 => Sys2Proof.Machine.execDivI rd r1 r2 s
  | .addN rd r1 imm8 => Sys2Proof.Machine.execAddN rd r1 imm8 s
  | .subN rd r1 imm8 => Sys2Proof.Machine.execSubN rd r1 imm8 s
  | .mulN rd r1 imm8 => Sys2Proof.Machine.execMulN rd r1 imm8 s
  | .divN rd r1 imm8 => Sys2Proof.Machine.execDivN rd r1 imm8 s
  | .loadI rd ra off8 => Sys2Proof.Machine.execLoadI rd ra off8 s
  | .storeI r1 ra off8 => Sys2Proof.Machine.execStoreI r1 ra off8 s
  | .setILow rd imm16 => Sys2Proof.Machine.execSetILow rd imm16 s
  | .setIHigh rd imm16 => Sys2Proof.Machine.execSetIHigh rd imm16 s
  | .jump ra off16 => Sys2Proof.Machine.execJump ra off16 s
  | .jumpZero rc ra off8 => Sys2Proof.Machine.execJumpZero rc ra off8 s
  | .jumpGT rc ra off8 => Sys2Proof.Machine.execJumpGT rc ra off8 s
  | .endRun rout => Sys2Proof.Machine.execEndRun rout s
  | .sysCall => Sys2Proof.Machine.execSysCall s

end Sys2Proof.Machine
end

