-- ==== Sys2Proof/Machine/Fetch.lean ====
section
/-! DEFINITION. The stages of the step before and around execute (spec/40_interpreter_cycle.md R130), and the placing of an
instruction where the next step fetches it. -/

namespace Sys2Proof.Machine

/-- Stages 2 to 4 on the four bytes fetched at `pc`: a decode fault carries the bytes and the fetch address (R132). -/
def State.runRaw (s : State) (raw : RawInstr) : Host.Outcome State Fault Refusal :=
  match decode raw with
  | .ok i => exec i s
  | .error _ => .next (s.raise (.illegalInstruction raw s.pc))

/-- Stages 1 to 4 (R130, R131). -/
def State.runStages (s : State) : Host.Outcome State Fault Refusal :=
  match s.fetchInstruction s.pc with
  | .ok raw => s.runRaw raw
  | .error k => .next (s.raise k)

/-- The test of stage 0: the machine is in `RunOffEnd` mode and there is no next instruction (R130, R137). -/
def State.ranOffEnd (s : State) : Bool :=
  match s.termMode with
  | .endInstr => false
  | .runOffEnd => !s.hasNextInstruction s.pc

/-- Stages 0 to 4 of a running machine (R130). -/
def State.runStep (s : State) : Host.Outcome State Fault Refusal :=
  if s.ranOffEnd then .next (s.halt (s.readReg s.resultReg)) else s.runStages

/-- A byte array with the four bytes at index `a` on, grown to hold them if it is shorter. -/
def Memory.placeRaw (m : Memory) (a : Nat) (raw : RawInstr) : Memory :=
  ((((Memory.mk (max m.size (a + 4)) m.cells).writeByte a raw.b0).writeByte (a + 1) raw.b1).writeByte
    (a + 2) raw.b2).writeByte (a + 3) raw.b3

/-- The state with the four bytes placed at `pc` in the array that instructions are fetched from: the host's load of a program
(spec/70_reset_and_hazards.md R282, notes/assumptions/9.md). -/
def State.placeInstr (s : State) (raw : RawInstr) : State :=
  match s.topology with
  | .unified => { s with mem := s.mem.placeRaw s.pc.toNat raw }
  | .segregated => { s with imem := s.imem.placeRaw s.pc.toNat raw }

end Sys2Proof.Machine
end

