-- ==== Sys2Proof/Machine/Step.lean ====
section
/-! DEFINITION. One step of the machine (spec/40_interpreter_cycle.md R130). -/

namespace Sys2Proof.Machine

/-- One step: it applies only when `run = Running` (R130, R35); `Halted` and `Faulted` are terminal (U16). -/
def step (s : State) : Host.Outcome State Fault Refusal :=
  match s.run with
  | .running => s.runStep
  | .halted v => .fault (.alreadyHalted v)
  | .faulted k => .fault (.alreadyFaulted k)

/-- `s` with an instruction, given as the opcode table numbers its bits, stored where the next step fetches. -/
def State.withFetchWord (s : State) (nbits w : Nat) : State := s.placeInstr (rawOfTableWord nbits w)

end Sys2Proof.Machine
end

