-- ==== Sys2Proof/Machine/ConsoleHandler.lean ====
section
/-! DEFINITION. The reference console handler `H_console` (spec/47_syscall.md R220). It is not part of the machine (spec/00_scope.md
R5): it is one value of the parameter `HANDLER`, given so that its scenario can be stated. Its sink is outside the machine. -/

namespace Sys2Proof.Machine

/-- `0 <= s(c) <= 127`: an ASCII code (R220, G3; notes/assumptions/18.md). -/
def isAscii (c : Word) : Bool := decide (0 ≤ c.toInt) && decide (c.toInt ≤ 127)

/-- What `H_console` does to the machine, given the registers at entry (R220). -/
def consoleRun (x : RegName → Word) : HandlerRun :=
  if x .call1 = 1 then
    ⟨[.readReg .call1, .readReg .call2, .writeReg .call4 (if isAscii (x .call2) then 0 else 1)], .returns⟩
  else ⟨[.readReg .call1], .unknownSysCall⟩

/-- What `H_console` does to its sink, the characters sent so far in order (R220). -/
def consoleSink (sink : List Word) (x : RegName → Word) : List Word :=
  if x .call1 = 1 ∧ isAscii (x .call2) = true then sink ++ [x .call2] else sink

end Sys2Proof.Machine
end

