-- ==== Sys2Proof/Machine/Construct.lean ====
section
/-! DEFINITION. The construction interface (spec/00_scope.md R7 (a)): the parameters of R6 give a machine in its reset state
(spec/70_reset_and_hazards.md R280), or are rejected (U14 of spec/93_implementation_defined.md). -/

namespace Sys2Proof.Machine

/-- The instruction array of a construction: `IMEM` in `Segregated`, none in `Unified` (R52, U14). -/
def constructImem (p : Params) : Except ConfigError Memory :=
  match p.topology, p.imem with
  | .unified, none => .ok Memory.empty
  | .unified, some _ => .error .imemInUnified
  | .segregated, none => .error .imemMissing
  | .segregated, some bs => if bs.length > Config.maxSize then .error .imemTooLarge else .ok (Memory.ofBytes bs)

/-- The mutable array of a construction: `MEM_INIT`, of length `MEM_SIZE`, all zero by default (R6, R280, D6). -/
def constructMem (p : Params) : Except ConfigError Memory :=
  if p.memSize > Config.maxSize then .error .memSizeTooLarge
  else match p.memInit with
    | none => .ok ⟨p.memSize, []⟩
    | some bs => if bs.length = p.memSize then .ok (Memory.ofBytes bs) else .error .memInitLength

/-- Construction: the reset state of R280 for the given parameters. -/
def State.construct (p : Params) : Except ConfigError State :=
  (constructMem p).bind fun mem => (constructImem p).map fun imem =>
    { regs := ⟨0, 0, 0, 0, 0, 0, 0, 0, 0, 0⟩
      mem := mem
      imem := imem
      run := .running
      topology := p.topology
      termMode := p.termMode
      resultReg := p.resultReg
      handlerRuns := p.handlerRuns
      sysCalls := 0 }

/-- The parameters of `State.reset` (notes/assumptions/4.md). -/
def paramsAtReset : Params where
  topology := .segregated
  memSize := Config.maxSize
  imem := some []
  termMode := .endInstr
  resultReg := .call1
  memInit := none
  handlerRuns := []

end Sys2Proof.Machine
end

