-- ==== Sys2Proof/Machine/Run.lean ====
section
/-! DEFINITION. The run interface (spec/00_scope.md R7 (b), spec/40_interpreter_cycle.md R140): steps are applied while the run state
is `Running`, and the host gets the result word of `Halted` or the typed fault of `Faulted`. -/

namespace Sys2Proof.Machine

/-- What the run interface yields to the host (R7 (b), R140). -/
inductive RunReturn where
  /-- The final machine result, from `Halted(v)` (R138). -/
  | result (v : Word)
  /-- The fault as a typed signal, from `Faulted(kind, info)` (spec/60_exceptions.md R231, R245). -/
  | fault (kind : FaultKind)
deriving DecidableEq, Repr

/-- How a run stands after a bounded number of steps (notes/assumptions/21.md). -/
inductive RunProgress where
  /-- The run interface has returned; `final` is the terminal state, whose registers and memory the host may read
  (spec/46_end.md R202). -/
  | returned (r : RunReturn) (final : State)
  /-- The bound is used up and the machine still runs. -/
  | running (s : State)
  /-- The step from `s` has no end: a handler never returns (spec/47_syscall.md R218). -/
  | hung (s : State)
deriving DecidableEq, Repr

/-- What the run interface returns in this state: nothing while `Running` (R140). -/
def State.runReturn (s : State) : Option RunReturn :=
  match s.run with
  | .running => none
  | .halted v => some (.result v)
  | .faulted k => some (.fault k)

/-- The run interface, `Interpret` (R140), cut off after `bound` steps: it returns as soon as the machine is not `Running`, and else
applies one step. A step of a running machine has a next state or hangs in a handler, and is never refused (the statement
`RunningStepCompletes`). -/
def State.interpret : Nat → State → RunProgress
  | bound, s =>
    match s.runReturn with
    | some r => .returned r s
    | none =>
      match bound with
      | 0 => .running s
      | n + 1 =>
        match step s with
        | .next t => State.interpret n t
        | .fault _ => .hung s
        | .refused _ => .hung s

/-- The run interface without a bound, "the machine sets no step limit" (R140): from `s` it returns `r`, leaving `t`. No `r` and `t`
stand in this relation to a program that loops for ever or a handler that never returns. -/
def State.Interprets (s : State) (r : RunReturn) (t : State) : Prop := ∃ bound, State.interpret bound s = .returned r t

end Sys2Proof.Machine
end

