-- ==== Sys2Proof/Safety.lean ====
section
/-! DEFINITION. The vocabulary of the statements: what a step leaves unchanged, which register an instruction writes and with
what value by the rules of files 41 to 44 of spec/, and the invariant of every legal state. -/

namespace Sys2Proof.Machine

/-! What stays the same. -/

/-- Every register outside `rs` reads in `t` as in `s`. -/
def State.SameRegsBut (s t : State) (rs : List RegName) : Prop := ∀ r, r ∉ rs → t.readReg r = s.readReg r

/-- Every byte of the mutable array, and its size, is the same. -/
def State.SameMemory (s t : State) : Prop := t.mem.size = s.mem.size ∧ ∀ b, t.mem.readByte b = s.mem.readByte b

/-- The instruction array and the construction parameters are the same (spec/00_scope.md R6, spec/20_memory.md R52). -/
def State.SameFixed (s t : State) : Prop :=
  t.imem = s.imem ∧ t.mem.size = s.mem.size ∧ t.topology = s.topology ∧ t.termMode = s.termMode ∧ t.resultReg = s.resultReg

/-- No handler invocation has begun. -/
def State.SameHandler (s t : State) : Prop := t.handlerRuns = s.handlerRuns ∧ t.sysCalls = s.sysCalls

/-- Nothing but the registers in `rs` may have changed. -/
def State.SameBut (s t : State) (rs : List RegName) : Prop :=
  s.SameRegsBut t rs ∧ s.SameMemory t ∧ s.SameFixed t ∧ s.SameHandler t ∧ t.run = s.run

/-- The handler invocation of the next `SysCall` is `r`, with `rest` still to come: the next outcome fixed in advance, or the free
handler's when none is (notes/assumptions/1.md, 2.md). -/
def State.NextHandlerRun (s : State) (r : HandlerRun) (rest : List Invocation) : Prop :=
  s.handlerRuns = .finishes r :: rest ∨ (s.handlerRuns = [] ∧ rest = [] ∧ r = s.freeHandlerRun)

/-- `exec i` answers a next state that has raised `k` and has written nothing else (spec/60_exceptions.md R245). -/
def State.RaisesOnly (s : State) (i : Instr) (k : FaultKind) : Prop := exec i s = .next { s with run := .faulted k }

/-- `exec i` answers a next state in which `rd` holds `v`, `pc` has advanced by 4 and nothing else has changed. -/
def State.WritesAndAdvances (s : State) (i : Instr) (rd : RegName) (v : Word) : Prop :=
  ∃ t, exec i s = .next t ∧ t.readReg rd = v ∧ t.pc = s.pc + 4 ∧ s.SameBut t [rd, .programCounter]

/-! What an instruction writes. -/

/-- The register the instruction's destination field names (spec/10_state.md R27): the 11 instructions that have one. -/
def destination : Instr → Option RegName
  | .addI rd _ _ => some rd
  | .subI rd _ _ => some rd
  | .mulI rd _ _ => some rd
  | .divI rd _ _ => some rd
  | .addN rd _ _ => some rd
  | .subN rd _ _ => some rd
  | .mulN rd _ _ => some rd
  | .divN rd _ _ => some rd
  | .loadI rd _ _ => some rd
  | .setILow rd _ => some rd
  | .setIHigh rd _ => some rd
  | .storeI _ _ _ => none
  | .jump _ _ => none
  | .jumpZero _ _ _ => none
  | .jumpGT _ _ _ => none
  | .endRun _ => none
  | .sysCall => none

/-- The value the rules give the destination, said with the library's 32-bit operations and not with the model's own (G2 of
spec/93_implementation_defined.md: the low 32 bits do not depend on signedness); none where an earlier stage faults (a divisor of
0, a failed load) and for an instruction with no destination. -/
def resultValue (s : State) : Instr → Option Word
  | .addI _ r1 r2 => some (s.readReg r2 + s.readReg r1)
  | .subI _ r1 r2 => some (s.readReg r2 - s.readReg r1)
  | .mulI _ r1 r2 => some (s.readReg r2 * s.readReg r1)
  | .divI _ r1 r2 => if s.readReg r1 = 0 then none else some ((s.readReg r2).sdiv (s.readReg r1))
  | .addN _ r1 n => some (s.readReg r1 + BitVec.ofInt 32 n)
  | .subN _ r1 n => some (s.readReg r1 - BitVec.ofInt 32 n)
  | .mulN _ r1 n => some (s.readReg r1 * BitVec.ofInt 32 n)
  | .divN _ r1 n => if BitVec.ofInt 32 n = 0 then none else some ((s.readReg r1).sdiv (BitVec.ofInt 32 n))
  | .loadI _ ra n => answer (s.readWord (s.readReg ra + 4 * BitVec.ofInt 32 n))
  | .setILow rd n => some (s.readReg rd ||| (BitVec.ofInt 16 n).setWidth 32)
  | .setIHigh rd n => some (s.readReg rd ||| (BitVec.ofInt 16 n ++ (0 : BitVec 16) : BitVec 32))
  | .storeI _ _ _ => none
  | .jump _ _ => none
  | .jumpZero _ _ _ => none
  | .jumpGT _ _ _ => none
  | .endRun _ => none
  | .sysCall => none

/-- Nothing but what the instruction writes may have changed: its destination, `pc`, the four bytes of a `StoreI`, and the run state. -/
def State.SameButWritesOf (s t : State) (i : Instr) : Prop :=
  (∀ r, r ≠ .programCounter → destination i ≠ some r → t.readReg r = s.readReg r)
  ∧ (∀ b, (∀ r1 ra off8, i = .storeI r1 ra off8 →
      b < (s.effectiveAddress ra off8).toNat ∨ (s.effectiveAddress ra off8).toNat + 3 < b) → t.mem.readByte b = s.mem.readByte b)
  ∧ s.SameFixed t ∧ s.SameHandler t

/-- The four bytes with the bytes that hold no operand cleared (spec/30_encoding.md R109, R110). -/
def clearIgnored (raw : RawInstr) : RawInstr :=
  if raw.b0 = 0x0F then ⟨raw.b0, raw.b1, 0, 0⟩ else if raw.b0 = 0x10 then ⟨raw.b0, 0, 0, 0⟩ else raw

/-- The opcode byte is undecodable, or a byte in a register position of the opcode's format is above 10, by the formats of
spec/30_encoding.md R93 and R100 (R106). -/
def illegalBytes (raw : RawInstr) : Prop :=
  0x10 < raw.b0.toNat
  ∨ (raw.b0.toNat ≤ 0x0F ∧ 10 < raw.b1.toNat)
  ∨ (raw.b0.toNat ≤ 0x09 ∧ 10 < raw.b2.toNat)
  ∨ ((raw.b0.toNat = 0x0D ∨ raw.b0.toNat = 0x0E) ∧ 10 < raw.b2.toNat)
  ∨ (raw.b0.toNat ≤ 0x03 ∧ 10 < raw.b3.toNat)

/-! The invariant. -/

/-- What holds of every legal state: the arrays are in canonical form and of legal size (spec/20_memory.md R53), `pc` is a
non-negative multiple of 4 (spec/10_state.md R30), and `Unified` has no second array (R51). -/
def State.Inv (s : State) : Prop :=
  s.mem.wf = true ∧ s.imem.wf = true ∧ validPC s.pc = true ∧ (s.topology = .unified → s.imem = Memory.empty)

end Sys2Proof.Machine
end

