-- ==== Sys2Proof/Certificates/Slice0/Obligations.lean ====
section
/-! DEFINITION. The statements for the provers, grouped by what they are about. The vocabulary (`SameBut`, `RaisesOnly`,
`WritesAndAdvances`, `destination`, `resultValue`, `Inv`) is Sys2Proof/Safety.lean. -/

open Sys2Proof Sys2Proof.Machine

/-! Registers, memory unit. -/

/-- The register read and write policies (spec/10_state.md R24, R25). -/
def Obligations.RegisterWritePolicy : Prop :=
  ∀ (s : State) (r : RegName) (v : Word),
    s.readReg .zero = 0
    ∧ (r = .zero → s.writeReg r v = .error .illegalOperation)
    ∧ (r = .programCounter → v.toInt < 0 ∨ v.toNat % 4 ≠ 0 → s.writeReg r v = .error (.illegalPC v))
    ∧ (r ≠ .zero → (r = .programCounter → 0 ≤ v.toInt ∧ v.toNat % 4 = 0) →
        ∃ t, s.writeReg r v = .ok t ∧ t.readReg r = v ∧ s.SameBut t [r])

/-- The word read: bounds, then alignment, then the four bytes, little-endian (spec/20_memory.md R54, R56). -/
def Obligations.ReadWordChecksThenReads : Prop :=
  ∀ (s : State) (a : Word),
    (a.toInt < 0 ∨ a.toInt + 4 > s.mem.size → s.readWord a = .error (.memoryOutOfRange a s.mem.size))
    ∧ (0 ≤ a.toInt → a.toInt + 4 ≤ s.mem.size → a.toNat % 4 ≠ 0 → s.readWord a = .error (.memoryAlignment a))
    ∧ (0 ≤ a.toInt → a.toInt + 4 ≤ s.mem.size → a.toNat % 4 = 0 →
        ∃ v, s.readWord a = .ok v
          ∧ v.extractLsb' 0 8 = s.mem.readByte a.toNat ∧ v.extractLsb' 8 8 = s.mem.readByte (a.toNat + 1)
          ∧ v.extractLsb' 16 8 = s.mem.readByte (a.toNat + 2) ∧ v.extractLsb' 24 8 = s.mem.readByte (a.toNat + 3))

/-- The word write: the check first, nothing written if it raises; else exactly the four bytes, and the read after it gives the
word back (spec/20_memory.md R54, R57). The premise is the arrays' canonical form. -/
def Obligations.WriteWordChecksThenWrites : Prop :=
  ∀ (s : State) (a v : Word), s.mem.wf = true →
    (a.toInt < 0 ∨ a.toInt + 4 > s.mem.size → s.writeWord a v = .error (.memoryOutOfRange a s.mem.size))
    ∧ (0 ≤ a.toInt → a.toInt + 4 ≤ s.mem.size → a.toNat % 4 ≠ 0 → s.writeWord a v = .error (.memoryAlignment a))
    ∧ (0 ≤ a.toInt → a.toInt + 4 ≤ s.mem.size → a.toNat % 4 = 0 →
        ∃ t, s.writeWord a v = .ok t ∧ t.readWord a = .ok v
          ∧ t.mem.readByte a.toNat = v.extractLsb' 0 8 ∧ t.mem.readByte (a.toNat + 1) = v.extractLsb' 8 8
          ∧ t.mem.readByte (a.toNat + 2) = v.extractLsb' 16 8 ∧ t.mem.readByte (a.toNat + 3) = v.extractLsb' 24 8
          ∧ (∀ b, b < a.toNat ∨ a.toNat + 3 < b → t.mem.readByte b = s.mem.readByte b)
          ∧ s.SameRegsBut t [] ∧ s.SameFixed t ∧ s.SameHandler t ∧ t.run = s.run)

/-- The fetch, from the one array in `Unified` and from the instruction array in `Segregated` (spec/20_memory.md R51, R52, R54, R55). -/
def Obligations.FetchReadsTheTopologysArray : Prop :=
  ∀ (s : State) (m : Memory) (a : Word),
    (s.topology = .unified ∧ m = s.mem) ∨ (s.topology = .segregated ∧ m = s.imem) →
    (a.toInt < 0 ∨ a.toInt + 4 > m.size → s.fetchInstruction a = .error (.memoryOutOfRange a m.size))
    ∧ (0 ≤ a.toInt → a.toInt + 4 ≤ m.size → a.toNat % 4 ≠ 0 → s.fetchInstruction a = .error (.memoryAlignment a))
    ∧ (0 ≤ a.toInt → a.toInt + 4 ≤ m.size → a.toNat % 4 = 0 →
        s.fetchInstruction a
          = .ok ⟨m.readByte a.toNat, m.readByte (a.toNat + 1), m.readByte (a.toNat + 2), m.readByte (a.toNat + 3)⟩)

/-- `HasNext`, and that at an aligned address it is true exactly when a fetch there does not fault (spec/20_memory.md R58). -/
def Obligations.HasNextIffFetchable : Prop :=
  ∀ (s : State) (m : Memory) (a : Word),
    (s.topology = .unified ∧ m = s.mem) ∨ (s.topology = .segregated ∧ m = s.imem) →
    (s.hasNextInstruction a = true ↔ 0 ≤ a.toInt ∧ a.toInt + 4 ≤ m.size)
    ∧ (a.toNat % 4 = 0 → (s.hasNextInstruction a = true ↔ ∃ raw, s.fetchInstruction a = .ok raw))

/-- The address of `LoadI`, `StoreI` and the three jumps: the 32-bit sum of the base and four times the offset, which is aligned exactly
when the base is (spec/43_load_store.md R172, spec/45_control.md R193). For an exact sum below -2^31, where R65's derived sentence says
otherwise, following the formula is the model's choice (notes/assumptions/20.md). -/
def Obligations.ScaledAddressIsBasePlusFourOffsets : Prop :=
  ∀ (s : State) (ra : RegName) (off : Int), -32768 ≤ off → off ≤ 32767 →
    s.effectiveAddress ra off = BitVec.ofInt 32 ((s.readReg ra).toInt + 4 * off)
    ∧ s.jumpTarget ra off = BitVec.ofInt 32 ((s.readReg ra).toInt + 4 * off)
    ∧ ((s.effectiveAddress ra off).toNat % 4 = 0 ↔ (s.readReg ra).toNat % 4 = 0)

/-! The codec. -/

/-- Decode and encode agree, both ways, on every instruction value (spec/30_encoding.md R110). -/
def Obligations.DecodeEncodeRoundTrip : Prop :=
  (∀ i : Instr, i.wellFormed = true → decode (encode i) = .ok i)
  ∧ (∀ (raw : RawInstr) (i : Instr), decode raw = .ok i → encode i = clearIgnored raw)
  ∧ (∀ i j : Instr, i.wellFormed = true → j.wellFormed = true → encode i = encode j → i = j)
  ∧ (∀ i j : Instr, i.wellFormed = true → j.wellFormed = true → decode (encode i) = decode (encode j) → encode i = encode j)

/-- The decoder rejects exactly the undecodable opcode bytes and the register bytes above 10, and else gives a well-formed instruction
value (spec/30_encoding.md R106, R107, R108). -/
def Obligations.DecodeRejectsExactlyIllegalBytes : Prop :=
  ∀ raw : RawInstr,
    (illegalBytes raw → ∃ e, decode raw = .error e)
    ∧ (¬ illegalBytes raw → ∃ i, decode raw = .ok i ∧ i.wellFormed = true)

/-- Illegal bytes at `pc` raise `IllegalInstruction` with the bytes and the fetch address, and change nothing else
(spec/30_encoding.md R107, R108, spec/40_interpreter_cycle.md R132). -/
def Obligations.IllegalBytesRaiseIllegalInstruction : Prop :=
  ∀ (s : State) (raw : RawInstr), s.run = .running → s.fetchInstruction s.pc = .ok raw → illegalBytes raw →
    step s = .next { s with run := .faulted (.illegalInstruction raw s.pc) }

/-- The bytes of `End` and `SysCall` that hold no operand have no effect (spec/30_encoding.md R109). -/
def Obligations.IgnoredBytesHaveNoEffect : Prop :=
  (∀ b1 x2 x3 y2 y3 : Byte, decode ⟨0x0F, b1, x2, x3⟩ = decode ⟨0x0F, b1, y2, y3⟩)
  ∧ (∀ x1 x2 x3 : Byte, decode ⟨0x10, x1, x2, x3⟩ = .ok .sysCall)
  ∧ (∀ rout : RegName, (encode (.endRun rout)).b2 = 0 ∧ (encode (.endRun rout)).b3 = 0)
  ∧ encode .sysCall = ⟨0x10, 0, 0, 0⟩

/-- A few words of the spec's own samples (S1, V-ENC of spec/95_test_vectors.md), one a family, decode to the instruction they stand for. -/
def Obligations.SampleWordsDecode : Prop :=
  decode ⟨0x03, 0x0A, 0x09, 0x00⟩ = .ok (.divI .stackPointer .programCounter .zero)
  ∧ decode ⟨0x06, 0x02, 0x01, 0x80⟩ = .ok (.mulN .save2 .save1 (-128))
  ∧ decode ⟨0x09, 0x05, 0x01, 0xFF⟩ = .ok (.storeI .call1 .save1 (-1))
  ∧ decode ⟨0x0A, 0x01, 0x34, 0x12⟩ = .ok (.setILow .save1 0x1234)
  ∧ decode ⟨0x0C, 0x09, 0xFD, 0xFF⟩ = .ok (.jump .programCounter (-3))
  ∧ decode ⟨0x0F, 0x05, 0x00, 0x00⟩ = .ok (.endRun .call1)
  ∧ decode ⟨0x10, 0xFF, 0xFF, 0xFF⟩ = .ok .sysCall

/-! The interpreter cycle. -/

/-- A running machine whose bytes at `pc` decode to `i` runs `i`, in either termination mode; `exec` includes the advance
(spec/40_interpreter_cycle.md R130). -/
def Obligations.StepRunsTheDecodedInstruction : Prop :=
  ∀ (s : State) (raw : RawInstr) (i : Instr), s.run = .running → s.fetchInstruction s.pc = .ok raw → decode raw = .ok i →
    step s = exec i s

/-- Fetch faults: only `MemoryOutOfRange(pc, len)`, only past the end, and then the step ends in `Faulted` in `EndInstr` mode; in
`RunOffEnd` mode a fetch never faults (spec/40_interpreter_cycle.md R131, R139). -/
def Obligations.FetchPastTheEndFaults : Prop :=
  ∀ s : State, s.run = .running → validPC s.pc = true →
    (∀ k, s.fetchInstruction s.pc = .error k →
      k = .memoryOutOfRange s.pc s.instrStore.size ∧ s.pc.toInt + 4 > s.instrStore.size)
    ∧ (s.termMode = .endInstr → s.pc.toInt + 4 > s.instrStore.size →
        step s = .next { s with run := .faulted (.memoryOutOfRange s.pc s.instrStore.size) })
    ∧ (s.termMode = .runOffEnd → s.pc.toInt + 4 > s.instrStore.size →
        step s = .next { s with run := .halted (s.readReg s.resultReg) })

/-- `RunOffEnd` mode halts before the fetch with the result register, and writes nothing else; in `EndInstr` mode there is no such
test, and the machine does not halt (spec/40_interpreter_cycle.md R137, R138, R139). -/
def Obligations.RunOffEndHaltsWithResultRegister : Prop :=
  ∀ s : State, s.run = .running → s.hasNextInstruction s.pc = false →
    (s.termMode = .runOffEnd → step s = .next { s with run := .halted (s.readReg s.resultReg) })
    ∧ (s.termMode = .endInstr → ∀ t v, step s = .next t → t.run ≠ .halted v)

/-- No step applies in `Halted` or `Faulted` (spec/10_state.md R35), and the run interface (spec/00_scope.md R7,
spec/40_interpreter_cycle.md R140): it returns there at once, with the result or the fault; while `Running` it applies a step and goes
on; what it returns is what the terminal state says, it returns one thing at most, and from a `SysCall` whose handler never
returns it does not return (spec/47_syscall.md R218). That the host's outcome of a step after termination is `fault`, and that a run is followed through a bound on its steps, is the model's choice (notes/assumptions/7.md, 21.md). -/
def Obligations.NoStepAppliesAfterTermination : Prop :=
  (∀ s : State, s.run ≠ .running → ∀ t, step s ≠ .next t)
  ∧ (∀ (s : State) (v : Word), s.run = .halted v → s.Interprets (.result v) s)
  ∧ (∀ (s : State) (k : FaultKind), s.run = .faulted k → s.Interprets (.fault k) s)
  ∧ (∀ (s t u : State) (r : RunReturn), s.run = .running → step s = .next t → (s.Interprets r u ↔ t.Interprets r u))
  ∧ (∀ (s t : State) (v : Word), s.Interprets (.result v) t → t.run = .halted v)
  ∧ (∀ (s t : State) (k : FaultKind), s.Interprets (.fault k) t → t.run = .faulted k)
  ∧ (∀ (s t t' : State) (r r' : RunReturn), s.Interprets r t → s.Interprets r' t' → r = r' ∧ t = t')
  ∧ (∀ (s t : State) (r : RunReturn) (rest : List Invocation) (raw : RawInstr), s.run = .running →
      s.fetchInstruction s.pc = .ok raw → decode raw = .ok .sysCall → s.handlerRuns = .never :: rest → ¬ s.Interprets r t)

/-- A step of a running machine has a next state, unless it is a `SysCall` whose handler never returns
(spec/70_reset_and_hazards.md R296, spec/47_syscall.md R218). A step that ends in `Faulted` counts as one that has a next state
(the model's choice, notes/assumptions/6.md; spec/40_interpreter_cycle.md R142 sets it apart from one that completes with its
effects), and the host outcome `fault .handlerNeverReturns` for a hang, which R218 calls no fault, is the model's choice
(notes/assumptions/8.md). -/
def Obligations.RunningStepCompletes : Prop :=
  ∀ s : State, s.run = .running →
    (∃ t, step s = .next t)
    ∨ (step s = .fault .handlerNeverReturns ∧ (∃ rest, s.handlerRuns = .never :: rest)
        ∧ ∃ raw, s.fetchInstruction s.pc = .ok raw ∧ decode raw = .ok .sysCall)

/-- The default advance (spec/40_interpreter_cycle.md R134): from a valid `pc` it adds 4, and at 0x7FFFFFFC it raises
`IllegalPC(0x80000000)` and writes nothing. -/
def Obligations.DefaultAdvanceAddsFourOrFaults : Prop :=
  ∀ s : State, validPC s.pc = true →
    (s.pc ≠ 0x7FFFFFFC → s.advance.pc = s.pc + 4 ∧ s.SameBut s.advance [.programCounter])
    ∧ (s.pc = 0x7FFFFFFC → s.advance = { s with run := .faulted (.illegalPC 0x80000000) })

/-! Arithmetic: each instruction completes with its result. The destinations `Zero` and `PC` are the statements
`ZeroDestinationRaisesIllegalOperation` and `PcDestinationWritesThenAdvances` below. -/

/-- `AddI` (spec/41_arith_reg.md R150). -/
def Obligations.AddICompletes : Prop :=
  ∀ (rd r1 r2 : RegName) (s : State), rd ≠ .zero → rd ≠ .programCounter → validPC (s.pc + 4) = true →
    s.WritesAndAdvances (.addI rd r1 r2) rd (BitVec.ofInt 32 ((s.readReg r2).toInt + (s.readReg r1).toInt))

/-- `SubI`: `R2` minus `R1` (spec/41_arith_reg.md R151). -/
def Obligations.SubICompletes : Prop :=
  ∀ (rd r1 r2 : RegName) (s : State), rd ≠ .zero → rd ≠ .programCounter → validPC (s.pc + 4) = true →
    s.WritesAndAdvances (.subI rd r1 r2) rd (BitVec.ofInt 32 ((s.readReg r2).toInt - (s.readReg r1).toInt))

/-- `MulI` (spec/41_arith_reg.md R152). -/
def Obligations.MulICompletes : Prop :=
  ∀ (rd r1 r2 : RegName) (s : State), rd ≠ .zero → rd ≠ .programCounter → validPC (s.pc + 4) = true →
    s.WritesAndAdvances (.mulI rd r1 r2) rd (BitVec.ofInt 32 ((s.readReg r2).toInt * (s.readReg r1).toInt))

/-- `DivI`: `R2` divided by `R1`, truncated (spec/41_arith_reg.md R153, R155). -/
def Obligations.DivICompletes : Prop :=
  ∀ (rd r1 r2 : RegName) (s : State), rd ≠ .zero → rd ≠ .programCounter → validPC (s.pc + 4) = true → s.readReg r1 ≠ 0 →
    s.WritesAndAdvances (.divI rd r1 r2) rd (BitVec.ofInt 32 (Int.tdiv (s.readReg r2).toInt (s.readReg r1).toInt))

/-- `AddN` (spec/42_arith_imm.md R160). -/
def Obligations.AddNCompletes : Prop :=
  ∀ (rd r1 : RegName) (imm8 : Int) (s : State), imm8InRange imm8 = true → rd ≠ .zero → rd ≠ .programCounter →
    validPC (s.pc + 4) = true → s.WritesAndAdvances (.addN rd r1 imm8) rd (BitVec.ofInt 32 ((s.readReg r1).toInt + imm8))

/-- `SubN` (spec/42_arith_imm.md R161). -/
def Obligations.SubNCompletes : Prop :=
  ∀ (rd r1 : RegName) (imm8 : Int) (s : State), imm8InRange imm8 = true → rd ≠ .zero → rd ≠ .programCounter →
    validPC (s.pc + 4) = true → s.WritesAndAdvances (.subN rd r1 imm8) rd (BitVec.ofInt 32 ((s.readReg r1).toInt - imm8))

/-- `MulN` (spec/42_arith_imm.md R162). -/
def Obligations.MulNCompletes : Prop :=
  ∀ (rd r1 : RegName) (imm8 : Int) (s : State), imm8InRange imm8 = true → rd ≠ .zero → rd ≠ .programCounter →
    validPC (s.pc + 4) = true → s.WritesAndAdvances (.mulN rd r1 imm8) rd (BitVec.ofInt 32 ((s.readReg r1).toInt * imm8))

/-- `DivN` (spec/42_arith_imm.md R163). -/
def Obligations.DivNCompletes : Prop :=
  ∀ (rd r1 : RegName) (imm8 : Int) (s : State), imm8InRange imm8 = true → imm8 ≠ 0 → rd ≠ .zero → rd ≠ .programCounter →
    validPC (s.pc + 4) = true →
    s.WritesAndAdvances (.divN rd r1 imm8) rd (BitVec.ofInt 32 (Int.tdiv (s.readReg r1).toInt imm8))

/-- A divisor of 0 raises `ArithmeticFault` whatever the destination, `Zero` and `PC` included, before any write
(spec/41_arith_reg.md R153, spec/42_arith_imm.md R163, spec/60_exceptions.md R241). -/
def Obligations.DivideByZeroRaisesArithmeticFault : Prop :=
  (∀ (rd r1 r2 : RegName) (s : State), s.readReg r1 = 0 → s.RaisesOnly (.divI rd r1 r2) .arithmeticFault)
  ∧ (∀ (rd r1 : RegName) (s : State), s.RaisesOnly (.divN rd r1 0) .arithmeticFault)

/-! Loads and stores. -/

/-- `LoadI` from an accessible address (spec/43_load_store.md R170). -/
def Obligations.LoadICompletes : Prop :=
  ∀ (rd ra : RegName) (off8 : Int) (s : State) (ea : Word), ea = s.effectiveAddress ra off8 → imm8InRange off8 = true →
    0 ≤ ea.toInt → ea.toInt + 4 ≤ s.mem.size → ea.toNat % 4 = 0 →
    rd ≠ .zero → rd ≠ .programCounter → validPC (s.pc + 4) = true →
    s.WritesAndAdvances (.loadI rd ra off8) rd
      (s.mem.readByte (ea.toNat + 3) ++ s.mem.readByte (ea.toNat + 2) ++ s.mem.readByte (ea.toNat + 1) ++ s.mem.readByte ea.toNat)

/-- `StoreI` to an accessible address: the four bytes hold the value, every other byte and everything else is as before
(spec/43_load_store.md R171). -/
def Obligations.StoreICompletes : Prop :=
  ∀ (r1 ra : RegName) (off8 : Int) (s : State) (ea : Word), ea = s.effectiveAddress ra off8 → imm8InRange off8 = true →
    s.mem.wf = true → 0 ≤ ea.toInt → ea.toInt + 4 ≤ s.mem.size → ea.toNat % 4 = 0 → validPC (s.pc + 4) = true →
    ∃ t, exec (.storeI r1 ra off8) s = .next t
      ∧ t.mem.readByte ea.toNat = (s.readReg r1).extractLsb' 0 8 ∧ t.mem.readByte (ea.toNat + 1) = (s.readReg r1).extractLsb' 8 8
      ∧ t.mem.readByte (ea.toNat + 2) = (s.readReg r1).extractLsb' 16 8
      ∧ t.mem.readByte (ea.toNat + 3) = (s.readReg r1).extractLsb' 24 8
      ∧ (∀ b, b < ea.toNat ∨ ea.toNat + 3 < b → t.mem.readByte b = s.mem.readByte b)
      ∧ t.pc = s.pc + 4 ∧ s.SameRegsBut t [.programCounter] ∧ s.SameFixed t ∧ s.SameHandler t ∧ t.run = s.run

/-- The memory faults of `LoadI` and `StoreI`, bounds before alignment and both before the register write, so that they come
whatever the destination; nothing is written (spec/43_load_store.md R170, R171, spec/60_exceptions.md R241). -/
def Obligations.LoadStoreFaultsWriteNothing : Prop :=
  ∀ (r ra : RegName) (off8 : Int) (s : State) (ea : Word), ea = s.effectiveAddress ra off8 →
    (ea.toInt < 0 ∨ ea.toInt + 4 > s.mem.size →
      s.RaisesOnly (.loadI r ra off8) (.memoryOutOfRange ea s.mem.size)
      ∧ s.RaisesOnly (.storeI r ra off8) (.memoryOutOfRange ea s.mem.size))
    ∧ (0 ≤ ea.toInt → ea.toInt + 4 ≤ s.mem.size → ea.toNat % 4 ≠ 0 →
      s.RaisesOnly (.loadI r ra off8) (.memoryAlignment ea) ∧ s.RaisesOnly (.storeI r ra off8) (.memoryAlignment ea))

/-- A load after a store to the same address gives the stored word (spec/20_memory.md R57, R70). -/
def Obligations.LoadAfterStoreGivesTheWord : Prop :=
  ∀ (r1 ra rd : RegName) (off8 : Int) (s t : State), s.mem.wf = true → ra ≠ .programCounter →
    rd ≠ .zero → rd ≠ .programCounter → s.run = .running → exec (.storeI r1 ra off8) s = .next t → t.run = .running →
    validPC (t.pc + 4) = true →
    ∃ u, exec (.loadI rd ra off8) t = .next u ∧ u.readReg rd = s.readReg r1 ∧ t.SameBut u [rd, .programCounter]

/-- Code and stores: in `Unified` the next fetch of a stored-to address sees the new bytes; in `Segregated` no store changes any fetch
(spec/20_memory.md R52, R73). -/
def Obligations.StoresReachFetchInUnifiedOnly : Prop :=
  ∀ (r1 ra : RegName) (off8 : Int) (s t : State), s.mem.wf = true → s.run = .running →
    exec (.storeI r1 ra off8) s = .next t → t.run = .running →
    (s.topology = .unified →
      ∃ raw, t.fetchInstruction (s.effectiveAddress ra off8) = .ok raw ∧ raw.word = s.readReg r1)
    ∧ (s.topology = .segregated → ∀ a, t.fetchInstruction a = s.fetchInstruction a)

/-! Immediate set. -/

/-- `SetILow` ORs the zero-extended immediate (spec/44_set_imm.md R180, R183). -/
def Obligations.SetILowCompletes : Prop :=
  ∀ (rd : RegName) (imm16 : Int) (s : State), imm16InRange imm16 = true → rd ≠ .zero → rd ≠ .programCounter →
    validPC (s.pc + 4) = true →
    s.WritesAndAdvances (.setILow rd imm16) rd (s.readReg rd ||| ((0 : BitVec 16) ++ BitVec.ofInt 16 imm16 : BitVec 32))

/-- `SetIHigh` ORs the immediate into the high half (spec/44_set_imm.md R181). -/
def Obligations.SetIHighCompletes : Prop :=
  ∀ (rd : RegName) (imm16 : Int) (s : State), imm16InRange imm16 = true → rd ≠ .zero → rd ≠ .programCounter →
    validPC (s.pc + 4) = true →
    s.WritesAndAdvances (.setIHigh rd imm16) rd (s.readReg rd ||| (BitVec.ofInt 16 imm16 ++ (0 : BitVec 16) : BitVec 32))

/-- To load any constant: clear the register, then `SetIHigh` and `SetILow` with its halves, in either order
(spec/44_set_imm.md R182). -/
def Obligations.ClearThenSetBothHalvesLoadsConstant : Prop :=
  ∀ (rd : RegName) (k : Word) (s : State), rd ≠ .zero → rd ≠ .programCounter → validPC s.pc = true → validPC (s.pc + 12) = true →
    ∃ a b c d e,
      exec (.addI rd .zero .zero) s = .next a ∧ a.readReg rd = 0
      ∧ exec (.setIHigh rd (k.extractLsb' 16 16).toInt) a = .next b ∧ exec (.setILow rd (k.extractLsb' 0 16).toInt) b = .next c
      ∧ exec (.setILow rd (k.extractLsb' 0 16).toInt) a = .next d ∧ exec (.setIHigh rd (k.extractLsb' 16 16).toInt) d = .next e
      ∧ c.readReg rd = k ∧ e = c ∧ c.pc = s.pc + 12 ∧ s.SameBut c [rd, .programCounter]

/-! Control transfer. -/

/-- `Jump` (spec/45_control.md R190): the target is set without an advance, or refused with `IllegalPC(t)`. -/
def Obligations.JumpSetsPcOrFaults : Prop :=
  ∀ (ra : RegName) (off16 : Int) (s : State) (t : Word), t = s.jumpTarget ra off16 →
    (0 ≤ t.toInt → t.toNat % 4 = 0 →
      ∃ u, exec (.jump ra off16) s = .next u ∧ u.pc = t ∧ s.SameBut u [.programCounter])
    ∧ (t.toInt < 0 ∨ t.toNat % 4 ≠ 0 → s.RaisesOnly (.jump ra off16) (.illegalPC t))

/-- `JumpZero` (spec/45_control.md R191): taken iff the condition register is 0; not taken it never looks at the target. -/
def Obligations.JumpZeroTakenIffZero : Prop :=
  ∀ (rc ra : RegName) (off8 : Int) (s : State) (t : Word), t = s.jumpTarget ra off8 →
    (s.readReg rc = 0 → 0 ≤ t.toInt → t.toNat % 4 = 0 →
      ∃ u, exec (.jumpZero rc ra off8) s = .next u ∧ u.pc = t ∧ s.SameBut u [.programCounter])
    ∧ (s.readReg rc = 0 → t.toInt < 0 ∨ t.toNat % 4 ≠ 0 → s.RaisesOnly (.jumpZero rc ra off8) (.illegalPC t))
    ∧ (s.readReg rc ≠ 0 → validPC (s.pc + 4) = true →
      ∃ u, exec (.jumpZero rc ra off8) s = .next u ∧ u.pc = s.pc + 4 ∧ s.SameBut u [.programCounter])
    ∧ (s.readReg rc ≠ 0 → s.pc = 0x7FFFFFFC → s.RaisesOnly (.jumpZero rc ra off8) (.illegalPC 0x80000000))

/-- `JumpGT` (spec/45_control.md R192): taken iff the condition register is greater than 0, signed. -/
def Obligations.JumpGTTakenIffPositive : Prop :=
  ∀ (rc ra : RegName) (off8 : Int) (s : State) (t : Word), t = s.jumpTarget ra off8 →
    (0 < (s.readReg rc).toInt → 0 ≤ t.toInt → t.toNat % 4 = 0 →
      ∃ u, exec (.jumpGT rc ra off8) s = .next u ∧ u.pc = t ∧ s.SameBut u [.programCounter])
    ∧ (0 < (s.readReg rc).toInt → t.toInt < 0 ∨ t.toNat % 4 ≠ 0 → s.RaisesOnly (.jumpGT rc ra off8) (.illegalPC t))
    ∧ ((s.readReg rc).toInt ≤ 0 → validPC (s.pc + 4) = true →
      ∃ u, exec (.jumpGT rc ra off8) s = .next u ∧ u.pc = s.pc + 4 ∧ s.SameBut u [.programCounter])
    ∧ ((s.readReg rc).toInt ≤ 0 → s.pc = 0x7FFFFFFC → s.RaisesOnly (.jumpGT rc ra off8) (.illegalPC 0x80000000))

/-- `End` halts with its register, in both termination modes, and writes nothing else; `pc` stays (spec/46_end.md R200, R201,
spec/40_interpreter_cycle.md R138). -/
def Obligations.EndHaltsWithRegister : Prop :=
  ∀ (rout : RegName) (s : State), exec (.endRun rout) s = .next { s with run := .halted (s.readReg rout) }

/-! The syscall trap. `NextHandlerRun` covers both handlers: the outcome fixed in advance in `handlerRuns`
(notes/assumptions/1.md), and the free handler where that is empty (notes/assumptions/2.md). -/

/-- A handler that returns: its accesses in order, then the default advance from the `pc` it left (spec/47_syscall.md R210, R213). -/
def Obligations.SysCallReturnThenAdvances : Prop :=
  ∀ (s t : State) (r : HandlerRun) (rest : List Invocation), s.NextHandlerRun r rest → r.ending = .returns →
    (s.nextInvocation rest).handlerOps r.ops = (t, none) →
    (validPC (t.pc + 4) = true → ∃ u, exec .sysCall s = .next u ∧ u.pc = t.pc + 4 ∧ t.SameBut u [.programCounter])
    ∧ (t.pc = 0x7FFFFFFC → exec .sysCall s = .next { t with run := .faulted (.illegalPC 0x80000000) })

/-- A handler that does nothing and returns: only `pc` moves, by 4; the model's record of the invocation moves on
(spec/47_syscall.md R211, R213). -/
def Obligations.SysCallIdleHandlerOnlyAdvances : Prop :=
  ∀ (s : State) (rest : List Invocation), s.NextHandlerRun ⟨[], .returns⟩ rest → validPC (s.pc + 4) = true →
    ∃ u, exec .sysCall s = .next u ∧ u.pc = s.pc + 4 ∧ s.SameRegsBut u [.programCounter] ∧ s.SameMemory u ∧ s.SameFixed u
      ∧ u.run = s.run ∧ u.handlerRuns = rest

/-- Whatever handler ran, the registers and bytes that none of its accesses writes are as before, but for `pc`
(spec/47_syscall.md R211, R212, R215). -/
def Obligations.HandlerWritesOnlyWhatItAccesses : Prop :=
  ∀ (s u : State) (r : HandlerRun) (rest : List Invocation), s.NextHandlerRun r rest →
    exec .sysCall s = .next u →
    (∀ q, q ≠ .programCounter → (∀ v, HandlerOp.writeReg q v ∉ r.ops) → u.readReg q = s.readReg q)
    ∧ (∀ b, (∀ a v, HandlerOp.writeWord a v ∈ r.ops → b < a.toNat ∨ a.toNat + 3 < b) → u.mem.readByte b = s.mem.readByte b)
    ∧ u.handlerRuns = rest

/-- An identifier the handler does not recognise: `UnknownSysCall(x[Call1])`, and `pc` is not advanced (spec/47_syscall.md R216). That
the payload is `Call1` at entry is the model's reading (notes/assumptions/10.md). -/
def Obligations.UnknownSysCallFaultsWithCall1 : Prop :=
  ∀ (s t : State) (r : HandlerRun) (rest : List Invocation), s.NextHandlerRun r rest → r.ending = .unknownSysCall →
    (s.nextInvocation rest).handlerOps r.ops = (t, none) →
    exec .sysCall s = .next { t with run := .faulted (.unknownSysCall (s.readReg .call1)) }

/-- A handler's access that faults ends the run; what the handler wrote before stays, what it would do after does not happen, and
`pc` is not advanced (spec/47_syscall.md R214). -/
def Obligations.HandlerFaultKeepsEarlierWrites : Prop :=
  ∀ (s t : State) (before after : List HandlerOp) (op : HandlerOp) (k : FaultKind) (ending : HandlerEnd) (rest : List Invocation),
    s.NextHandlerRun ⟨before ++ op :: after, ending⟩ rest →
    (s.nextInvocation rest).handlerOps before = (t, none) → t.handlerOp op = .error k →
    exec .sysCall s = .next { t with run := .faulted k }

/-- A handler that never returns leaves the step without an end (spec/47_syscall.md R218). -/
def Obligations.SysCallNeverReturningHasNoNextState : Prop :=
  ∀ (s : State) (rest : List Invocation), s.handlerRuns = .never :: rest → exec .sysCall s = .fault .handlerNeverReturns

/-- Whatever the handler does, the free one included: `pc` stays valid, the instruction array and the parameters stay, the run is
never halted, and the only new faults are those of its accesses, of the identifier and of the advance
(spec/47_syscall.md R212, R214, spec/10_state.md R26). -/
def Obligations.SysCallKeepsThePolicies : Prop :=
  ∀ s u : State, exec .sysCall s = .next u →
    s.SameFixed u
    ∧ (validPC s.pc = true → validPC u.pc = true)
    ∧ (s.mem.wf = true → u.mem.wf = true)
    ∧ u.sysCalls = s.sysCalls + 1
    ∧ (u.run = s.run ∨ ∃ k, u.run = .faulted k ∧ k ≠ .arithmeticFault ∧ ∀ raw a, k ≠ .illegalInstruction raw a)

/-- The reference console handler (spec/47_syscall.md R220): `Call4` gets 0 for an ASCII code and 1 for another, nothing else but `pc`
changes; another identifier faults. That an ASCII code is 0 to 127 is PRESUMED (notes/assumptions/18.md): R220 marks the range as
general knowledge (G3 of spec/93_implementation_defined.md). -/
def Obligations.ConsoleHandlerReportsStatusInCall4 : Prop :=
  ∀ (s : State) (rest : List Invocation), s.NextHandlerRun (consoleRun s.readReg) rest → validPC (s.pc + 4) = true →
    (s.readReg .call1 = 1 →
      ∃ u, exec .sysCall s = .next u ∧ u.pc = s.pc + 4 ∧ s.SameRegsBut u [.call4, .programCounter] ∧ s.SameMemory u
        ∧ s.SameFixed u ∧ u.run = s.run
        ∧ (0 ≤ (s.readReg .call2).toInt → (s.readReg .call2).toInt ≤ 127 → u.readReg .call4 = 0)
        ∧ ((s.readReg .call2).toInt < 0 ∨ 127 < (s.readReg .call2).toInt → u.readReg .call4 = 1))
    ∧ (s.readReg .call1 ≠ 1 →
      ∃ u, exec .sysCall s = .next u ∧ u.run = .faulted (.unknownSysCall (s.readReg .call1)) ∧ s.SameRegsBut u []
        ∧ s.SameMemory u ∧ s.SameFixed u)

/-! The destinations `Zero` and `PC`, and the advance's fault, for all 11 instructions that have a destination. `resultValue` is
none where an earlier stage faults. -/

/-- `Zero` as destination raises `IllegalOperation` whatever the value (spec/10_state.md R25, spec/70_reset_and_hazards.md R292). -/
def Obligations.ZeroDestinationRaisesIllegalOperation : Prop :=
  ∀ (i : Instr) (s : State) (v : Word), i.wellFormed = true → destination i = some .zero → resultValue s i = some v →
    s.RaisesOnly i .illegalOperation

/-- `PC` as destination: the value is checked and written, and the advance still follows (spec/40_interpreter_cycle.md R135). -/
def Obligations.PcDestinationWritesThenAdvances : Prop :=
  ∀ (i : Instr) (s : State) (v : Word), i.wellFormed = true → destination i = some .programCounter → resultValue s i = some v →
    (validPC v = false → s.RaisesOnly i (.illegalPC v))
    ∧ (validPC v = true → v ≠ 0x7FFFFFFC → ∃ t, exec i s = .next t ∧ t.pc = v + 4 ∧ s.SameBut t [.programCounter])
    ∧ (v = 0x7FFFFFFC →
        ∃ t, exec i s = .next t ∧ t.run = .faulted (.illegalPC 0x80000000) ∧ t.pc = v ∧ s.SameRegsBut t [.programCounter]
          ∧ s.SameMemory t ∧ s.SameFixed t ∧ s.SameHandler t)

/-- The result by the library's 32-bit operations, for every other destination: the low 32 bits of a sum, difference and product need
no signedness, and the wrapped truncated quotient is the library's signed division (spec/41_arith_reg.md R155, G2). -/
def Obligations.ResultsAgreeWithMachineArithmetic : Prop :=
  ∀ (i : Instr) (s : State) (rd : RegName) (v : Word), i.wellFormed = true → destination i = some rd → rd ≠ .zero →
    rd ≠ .programCounter → resultValue s i = some v → validPC (s.pc + 4) = true → s.WritesAndAdvances i rd v

/-- If the advance faults after a completed stage 3, the stage 3 write stays (spec/40_interpreter_cycle.md R142). -/
def Obligations.AdvanceFaultKeepsTheWrite : Prop :=
  (∀ (i : Instr) (s : State) (rd : RegName) (v : Word), i.wellFormed = true → destination i = some rd → rd ≠ .zero →
    rd ≠ .programCounter → resultValue s i = some v → s.pc = 0x7FFFFFFC →
    ∃ t, exec i s = .next t ∧ t.run = .faulted (.illegalPC 0x80000000) ∧ t.readReg rd = v ∧ t.pc = 0x7FFFFFFC
      ∧ s.SameRegsBut t [rd] ∧ s.SameMemory t ∧ s.SameFixed t ∧ s.SameHandler t)
  ∧ (∀ (r1 ra : RegName) (off8 : Int) (s : State) (ea : Word), ea = s.effectiveAddress ra off8 → s.mem.wf = true →
    0 ≤ ea.toInt → ea.toInt + 4 ≤ s.mem.size → ea.toNat % 4 = 0 → s.pc = 0x7FFFFFFC →
    ∃ t, exec (.storeI r1 ra off8) s = .next t ∧ t.run = .faulted (.illegalPC 0x80000000) ∧ t.readWord ea = .ok (s.readReg r1)
      ∧ (∀ b, b < ea.toNat ∨ ea.toNat + 3 < b → t.mem.readByte b = s.mem.readByte b)
      ∧ s.SameRegsBut t [] ∧ s.SameFixed t ∧ s.SameHandler t)

/-! Rules over all instructions and all steps. -/

/-- An instruction other than `SysCall` writes no register but its destination and `pc`, and no parameter, handler record or
instruction byte (spec/10_state.md R27). -/
def Obligations.OnlyDestinationAndPcChange : Prop :=
  ∀ (i : Instr) (s t : State), i ≠ .sysCall → exec i s = .next t →
    (∀ r, r ≠ .programCounter → destination i ≠ some r → t.readReg r = s.readReg r) ∧ s.SameFixed t ∧ s.SameHandler t

/-- An instruction other than `SysCall` writes no byte of memory but the four `StoreI` addresses
(spec/20_memory.md R57, spec/10_state.md R27). -/
def Obligations.OnlyStoreIWritesMemory : Prop :=
  ∀ (i : Instr) (s t : State) (b : Nat), i ≠ .sysCall → exec i s = .next t →
    (∀ r1 ra off8, i = .storeI r1 ra off8 →
      b < (s.effectiveAddress ra off8).toNat ∨ (s.effectiveAddress ra off8).toNat + 3 < b) →
    t.mem.readByte b = s.mem.readByte b

/-- Faults are precise: a step other than a `SysCall` step that ends in `Faulted` has written nothing, except when the fault is the
advance's after a completed stage 3, and then it has written nothing but what the instruction writes
(spec/40_interpreter_cycle.md R142, spec/60_exceptions.md R245, R246). -/
def Obligations.FaultsArePrecise : Prop :=
  ∀ (s t : State) (k : FaultKind), validPC s.pc = true → (∀ raw, s.fetchInstruction s.pc = .ok raw → decode raw ≠ .ok .sysCall) →
    step s = .next t → t.run = .faulted k →
    t = { s with run := .faulted k }
    ∨ (k = .illegalPC 0x80000000 ∧ t.pc = 0x7FFFFFFC
        ∧ ∃ raw i, s.fetchInstruction s.pc = .ok raw ∧ decode raw = .ok i ∧ s.SameButWritesOf t i)

/-- A run halts only by `End`, with its register, or by running off the end, with the result register (spec/10_state.md R35). -/
def Obligations.HaltedOnlyByEndOrRunOffEnd : Prop :=
  ∀ (s t : State) (v : Word), step s = .next t → t.run = .halted v →
    (s.termMode = .runOffEnd ∧ s.hasNextInstruction s.pc = false ∧ v = s.readReg s.resultReg)
    ∨ ∃ raw rout, s.fetchInstruction s.pc = .ok raw ∧ decode raw = .ok (.endRun rout) ∧ v = s.readReg rout

/-- No step changes the instruction array, a parameter or the size of an array (spec/10_state.md R20, R34, spec/20_memory.md R52). -/
def Obligations.NoStepChangesTheParameters : Prop :=
  ∀ s t : State, step s = .next t → s.SameFixed t

/-- No instruction other than `SysCall` reads the instruction array as data: with another one in its place it does the same
(spec/20_memory.md R52, R59). -/
def Obligations.InstructionArrayIsNoData : Prop :=
  ∀ (i : Instr) (s t : State) (m : Memory), i ≠ .sysCall → exec i s = .next t → exec i { s with imem := m } = .next { t with imem := m }

/-! Reset and the invariant. -/

/-- Construction gives the reset state of spec/70_reset_and_hazards.md R280 for its parameters, and it satisfies the invariant. -/
def Obligations.ConstructionGivesTheResetState : Prop :=
  ∀ (p : Params) (s : State), State.construct p = .ok s →
    (∀ r, s.readReg r = 0) ∧ s.run = .running ∧ s.topology = p.topology ∧ s.termMode = p.termMode ∧ s.resultReg = p.resultReg
    ∧ s.mem.size = p.memSize ∧ (∀ b, s.mem.readByte b = (p.memInit.getD []).getD b 0)
    ∧ s.imem.size = (p.imem.getD []).length ∧ (∀ b, s.imem.readByte b = (p.imem.getD []).getD b 0)
    ∧ s.Inv

/-- The construction interface accepts exactly the configurations within the stated limits (U14 of
spec/93_implementation_defined.md, spec/20_memory.md R53). -/
def Obligations.ConstructionAcceptsLegalParametersOnly : Prop :=
  ∀ p : Params,
    (∃ s, State.construct p = .ok s) ↔
      p.memSize ≤ 2147483647 ∧ (∀ bs, p.memInit = some bs → bs.length = p.memSize)
      ∧ (p.topology = .unified → p.imem = none)
      ∧ (p.topology = .segregated → ∃ bs, p.imem = some bs ∧ bs.length ≤ 2147483647)

/-- The reset state satisfies the invariant, and its registers and run state are as R40 and R280 say. The values of its open
parameters are the model's choice (notes/assumptions/4.md) and no part of this statement. -/
def Obligations.ResetSatisfiesTheInvariant : Prop :=
  State.reset.Inv ∧ (∀ r, State.reset.readReg r = 0) ∧ State.reset.run = .running

/-- The invariant is kept by every step, from every state that has it: canonical memory of legal size, `pc` a non-negative multiple of 4
(spec/10_state.md R30, spec/20_memory.md R53). -/
def Obligations.EveryStepKeepsTheInvariant : Prop :=
  ∀ s t : State, s.Inv → step s = .next t → t.Inv
end

