-- ==== Sys2Proof/Laws/Codec.lean ====
section
/-! SUPPORT. The numbering table read both ways, and the immediate fields. -/

namespace Sys2Proof

theorem registerOfByte_registerByte (r : RegName) : registerOfByte (registerByte r) = some r := by cases r <;> decide

theorem opcodeOfByte_opcodeByte (op : Opcode) : opcodeOfByte (opcodeByte op) = some op := by cases op <;> decide

theorem decodeRegister_registerByte (r : RegName) : decodeRegister (registerByte r) = .ok r := by
  unfold decodeRegister; rw [registerOfByte_registerByte]

/-- The bytes that name a register are 0 to 10 (R94). -/
theorem registerOfByte_eq_none_iff (b : Byte) : registerOfByte b = none ↔ 10 < b.toNat := by
  revert b; decide

/-- The bytes that name an opcode are 0x00 to 0x10 (R100). -/
theorem opcodeOfByte_eq_none_iff (b : Byte) : opcodeOfByte b = none ↔ 16 < b.toNat := by
  revert b; decide

theorem decodeImm8_ofInt (n : Int) (h : imm8InRange n = true) : decodeImm8 (BitVec.ofInt 8 n) = n := by
  simp only [imm8InRange, Bool.and_eq_true, decide_eq_true_eq] at h
  unfold decodeImm8
  rw [BitVec.toInt_ofInt]
  exact Int.bmod_eq_of_le (by omega) (by omega)

end Sys2Proof
end

