-- ==== Sys2Proof/Laws/Memory.lean ====
section
/-! SUPPORT. The laws of byte arrays: read after write, the canonical form kept by every operation, and once for each of the
memory unit's operations all that it can answer. -/

namespace Sys2Proof.Machine

/-! Cell lists. -/

theorem readCells_of_below (l : List Host.Cell) (size low a : Nat) (h : cellsWf size low l = true) (ha : a < low) :
    readCells l a = fillByte := by
  induction l generalizing low with
  | nil => rfl
  | cons c rest ih =>
    obtain ⟨k, v⟩ := c
    simp only [cellsWf, Bool.and_eq_true, decide_eq_true_eq] at h
    have hk : k ≠ a := by omega
    simp only [readCells, if_neg hk]
    exact ih (k + 1) h.2 (by omega)

/-- A read after a write: the byte written at its own index, the old byte everywhere else. -/
theorem readCells_writeCells (l : List Host.Cell) (size low a b : Nat) (v : Byte) (h : cellsWf size low l = true) :
    readCells (writeCells l a v) b = if b = a then v else readCells l b := by
  induction l generalizing low with
  | nil =>
    simp only [writeCells]
    split
    · next hv => simp [readCells, hv]
    · simp only [readCells, eq_comm]
  | cons c rest ih =>
    obtain ⟨k, w⟩ := c
    simp only [cellsWf, Bool.and_eq_true, decide_eq_true_eq] at h
    obtain ⟨⟨⟨_, _⟩, _⟩, hrest⟩ := h
    have hbelow := readCells_of_below rest size (k + 1) k hrest (by omega)
    have hfar : a < k → readCells rest a = fillByte := fun hak =>
      readCells_of_below rest size (k + 1) a hrest (by omega)
    simp only [writeCells]
    split
    · next hak =>
      split
      · next hv =>
        by_cases hb : b = a
        · have : k ≠ b := by omega
          subst hb; simp [readCells, this, hfar hak, hv]
        · simp [hb]
      · by_cases hb : b = a
        · simp [readCells, hb]
        · have : a ≠ b := fun e => hb e.symm
          simp [readCells, this, hb]
    · split
      · next hak =>
        subst hak
        split
        · next hv =>
          by_cases hb : b = a
          · subst hb; simp [hbelow, hv]
          · have : a ≠ b := fun e => hb e.symm
            simp [readCells, this, hb]
        · by_cases hb : b = a
          · simp [readCells, hb]
          · have : a ≠ b := fun e => hb e.symm
            simp [readCells, this, hb]
      · next hak =>
        simp only [readCells]
        by_cases hkb : k = b
        · have : b ≠ a := by omega
          simp [hkb, this]
        · simp only [if_neg hkb]
          exact ih (k + 1) hrest

/-- A write leaves every other byte alone, in any list of cells. -/
theorem readCells_writeCells_ne (l : List Host.Cell) (a b : Nat) (v : Byte) (h : b ≠ a) :
    readCells (writeCells l a v) b = readCells l b := by
  have hab : a ≠ b := fun e => h e.symm
  induction l with
  | nil =>
    simp only [writeCells]
    split
    · rfl
    · simp [readCells, hab]
  | cons c rest ih =>
    obtain ⟨k, w⟩ := c
    simp only [writeCells]
    split
    · split
      · rfl
      · simp [readCells, hab]
    · split
      · next hak => subst hak; split <;> simp [readCells, hab]
      · simp only [readCells, ih]

/-- A write inside the array keeps the canonical form. -/
theorem cellsWf_writeCells (l : List Host.Cell) (size low a : Nat) (v : Byte) (h : cellsWf size low l = true)
    (hlow : low ≤ a) (hsize : a < size) : cellsWf size low (writeCells l a v) = true := by
  induction l generalizing low with
  | nil =>
    simp only [writeCells]
    split
    · rfl
    · next hv => simp [cellsWf, hlow, hsize, hv]
  | cons c rest ih =>
    obtain ⟨k, w⟩ := c
    have h' := h
    simp only [cellsWf, Bool.and_eq_true, decide_eq_true_eq] at h'
    obtain ⟨⟨⟨hlk, hks⟩, hw⟩, hrest⟩ := h'
    simp only [writeCells]
    split
    · next hak =>
      split
      · exact h
      · next hv => simp [cellsWf, hlow, hsize, hv, hks, hw, hrest]; omega
    · split
      · next hak =>
        subst hak
        split
        · exact cellsWf_weaken rest size hrest (by omega)
        · next hv => simp [cellsWf, hlk, hks, hv, hrest]
      · simp only [cellsWf, Bool.and_eq_true, decide_eq_true_eq]
        exact ⟨⟨⟨hlk, hks⟩, hw⟩, ih (k + 1) hrest (by omega)⟩
where
  cellsWf_weaken (l : List Host.Cell) (size : Nat) {low low' : Nat} (h : cellsWf size low' l = true) (hl : low ≤ low') :
      cellsWf size low l = true := by
    cases l with
    | nil => rfl
    | cons c rest =>
      obtain ⟨k, v⟩ := c
      simp only [cellsWf, Bool.and_eq_true, decide_eq_true_eq] at h ⊢
      exact ⟨⟨⟨by omega, h.1.1.2⟩, h.1.2⟩, h.2⟩

theorem cellsWf_cellsOfBytes (bs : List Byte) (at_ low size : Nat) (hl : low ≤ at_) (hs : at_ + bs.length ≤ size) :
    cellsWf size low (cellsOfBytes at_ bs) = true := by
  induction bs generalizing at_ low with
  | nil => rfl
  | cons b rest ih =>
    simp only [List.length_cons] at hs
    simp only [cellsOfBytes]
    split
    · exact ih (at_ + 1) low (by omega) (by omega)
    · next hb =>
      simp only [cellsWf, Bool.and_eq_true, decide_eq_true_eq]
      exact ⟨⟨⟨hl, by omega⟩, hb⟩, ih (at_ + 1) (at_ + 1) (by omega) (by omega)⟩

/-- The byte string laid from `at_` on reads as itself, and as `fillByte` outside. -/
theorem readCells_cellsOfBytes (bs : List Byte) (at_ a : Nat) :
    readCells (cellsOfBytes at_ bs) a = if at_ ≤ a then bs.getD (a - at_) fillByte else fillByte := by
  induction bs generalizing at_ with
  | nil => simp [cellsOfBytes, readCells]
  | cons b rest ih =>
    have step : (if at_ + 1 ≤ a then rest.getD (a - (at_ + 1)) fillByte else fillByte)
        = if at_ ≤ a ∧ at_ ≠ a then (b :: rest).getD (a - at_) fillByte else fillByte := by
      by_cases h : at_ + 1 ≤ a
      · have h1 : a - at_ = (a - (at_ + 1)) + 1 := by omega
        simp [h, h1, show at_ ≤ a ∧ at_ ≠ a by omega]
      · simp [h, show ¬(at_ ≤ a ∧ at_ ≠ a) by omega]
    simp only [cellsOfBytes]
    split
    · next hb =>
      rw [ih, step]
      by_cases h : at_ = a
      · simp [h, hb]
      · simp [h]
    · simp only [readCells]
      by_cases h : at_ = a
      · simp [h]
      · rw [if_neg h, ih, step]; simp [h]

/-! Byte arrays. -/

@[simp] theorem Memory.writeByte_size (m : Memory) (a : Nat) (v : Byte) : (m.writeByte a v).size = m.size := rfl

theorem Memory.readByte_writeByte (m : Memory) (a b : Nat) (v : Byte) (h : m.wf = true) :
    (m.writeByte a v).readByte b = if b = a then v else m.readByte b := by
  simp only [Memory.wf, Bool.and_eq_true] at h
  exact readCells_writeCells m.cells m.size 0 a b v h.2

theorem Memory.wf_writeByte (m : Memory) (a : Nat) (v : Byte) (h : m.wf = true) (ha : a < m.size) :
    (m.writeByte a v).wf = true := by
  simp only [Memory.wf, Bool.and_eq_true] at h ⊢
  exact ⟨h.1, cellsWf_writeCells m.cells m.size 0 a v h.2 (by omega) ha⟩

theorem Memory.wf_ofBytes (bs : List Byte) (h : bs.length ≤ Config.maxSize) : (Memory.ofBytes bs).wf = true := by
  simp only [Memory.wf, Memory.ofBytes, Bool.and_eq_true]
  exact ⟨decide_eq_true h, cellsWf_cellsOfBytes bs 0 0 _ (by omega) (by omega)⟩

theorem Memory.readByte_ofBytes (bs : List Byte) (a : Nat) : (Memory.ofBytes bs).readByte a = bs.getD a fillByte := by
  simp [Memory.readByte, Memory.ofBytes, readCells_cellsOfBytes]

/-- The addresses that pass the check. -/
def Memory.accessible (m : Memory) (a : Word) : Prop := 0 ≤ a.toInt ∧ a.toInt + 4 ≤ m.size ∧ a.toNat % 4 = 0

/-- All that the check can answer (R54). -/
theorem Memory.check_cases (m : Memory) (a : Word) :
    (m.accessible a ∧ m.check a = .ok ())
    ∨ ((a.toInt < 0 ∨ a.toInt + 4 > m.size) ∧ m.check a = .error (.memoryOutOfRange a m.size))
    ∨ (0 ≤ a.toInt ∧ a.toInt + 4 ≤ m.size ∧ a.toNat % 4 ≠ 0 ∧ m.check a = .error (.memoryAlignment a)) := by
  unfold Memory.check Memory.accessible
  by_cases h1 : a.toInt < 0 ∨ a.toInt + 3 > (m.size : Int) - 1
  · exact .inr (.inl ⟨by omega, if_pos h1⟩)
  · by_cases h2 : a.toNat % 4 = 0
    · exact .inl ⟨⟨by omega, by omega, h2⟩, by rw [if_neg h1, if_neg (not_not.mpr h2)]⟩
    · exact .inr (.inr ⟨by omega, by omega, h2, by rw [if_neg h1, if_pos h2]⟩)

theorem Memory.check_of_accessible (m : Memory) (a : Word) (h : m.accessible a) : m.check a = .ok () := by
  rcases m.check_cases a with ⟨_, h'⟩ | ⟨h', _⟩ | ⟨_, _, h', _⟩
  · exact h'
  · unfold Memory.accessible at h; omega
  · unfold Memory.accessible at h; omega

theorem Memory.accessible_of_check {m : Memory} {a : Word} {u : Unit} (h : m.check a = .ok u) : m.accessible a := by
  rcases m.check_cases a with ⟨h', _⟩ | ⟨_, h'⟩ | ⟨_, _, _, h'⟩
  · exact h'
  · rw [h'] at h; cases h
  · rw [h'] at h; cases h

/-- A non-negative word reads the same signed and unsigned (R8). -/
theorem toInt_eq_toNat_of_nonneg (a : Word) (h : 0 ≤ a.toInt) : a.toInt = a.toNat := by
  have hc := BitVec.toInt_eq_toNat_cond a
  split at hc <;> omega

theorem Memory.accessible_toNat {m : Memory} {a : Word} (h : m.accessible a) : a.toNat + 4 ≤ m.size := by
  obtain ⟨h1, h2, _⟩ := h
  rw [toInt_eq_toNat_of_nonneg a h1] at h2
  omega

/-- If a word write answers, the address passed the check and the array is the four byte writes. -/
theorem Memory.writeWord_ok {m n : Memory} {a v : Word} (h : m.writeWord a v = .ok n) :
    m.accessible a ∧ n = (((m.writeByte a.toNat (v.extractLsb' 0 8)).writeByte (a.toNat + 1) (v.extractLsb' 8 8)).writeByte
      (a.toNat + 2) (v.extractLsb' 16 8)).writeByte (a.toNat + 3) (v.extractLsb' 24 8) := by
  unfold Memory.writeWord at h
  rcases hc : m.check a with e | u
  · rw [hc] at h; cases h
  · rw [hc] at h
    exact ⟨Memory.accessible_of_check hc, by simpa [Except.map] using h.symm⟩

theorem Memory.size_writeWord {m n : Memory} {a v : Word} (h : m.writeWord a v = .ok n) : n.size = m.size := by
  rw [(Memory.writeWord_ok h).2]; rfl

/-- Every word write keeps the canonical form. -/
theorem Memory.wf_writeWord {m n : Memory} {a v : Word} (hw : m.wf = true) (h : m.writeWord a v = .ok n) : n.wf = true := by
  obtain ⟨ha, rfl⟩ := Memory.writeWord_ok h
  have hs := Memory.accessible_toNat ha
  have h0 := m.wf_writeByte a.toNat (v.extractLsb' 0 8) hw (by omega)
  have h1 := Memory.wf_writeByte _ (a.toNat + 1) (v.extractLsb' 8 8) h0 (by simp only [Memory.writeByte_size]; omega)
  have h2 := Memory.wf_writeByte _ (a.toNat + 2) (v.extractLsb' 16 8) h1 (by simp only [Memory.writeByte_size]; omega)
  exact Memory.wf_writeByte _ _ _ h2 (by simp only [Memory.writeByte_size]; omega)

/-- Every byte after a word write (R57). -/
theorem Memory.readByte_writeWord {m n : Memory} {a v : Word} (hw : m.wf = true) (h : m.writeWord a v = .ok n) (b : Nat) :
    n.readByte b = if b = a.toNat then v.extractLsb' 0 8 else if b = a.toNat + 1 then v.extractLsb' 8 8
      else if b = a.toNat + 2 then v.extractLsb' 16 8 else if b = a.toNat + 3 then v.extractLsb' 24 8 else m.readByte b := by
  obtain ⟨ha, rfl⟩ := Memory.writeWord_ok h
  have hs := Memory.accessible_toNat ha
  have h0 := m.wf_writeByte a.toNat (v.extractLsb' 0 8) hw (by omega)
  have h1 := Memory.wf_writeByte _ (a.toNat + 1) (v.extractLsb' 8 8) h0 (by simp only [Memory.writeByte_size]; omega)
  have h2 := Memory.wf_writeByte _ (a.toNat + 2) (v.extractLsb' 16 8) h1 (by simp only [Memory.writeByte_size]; omega)
  rw [Memory.readByte_writeByte _ _ _ _ h2, Memory.readByte_writeByte _ _ _ _ h1, Memory.readByte_writeByte _ _ _ _ h0,
    Memory.readByte_writeByte _ _ _ _ hw]
  split_ifs <;> first | rfl | omega

/-- A word write leaves every byte outside its four alone, in any array (R57). -/
theorem Memory.readByte_writeWord_ne {m n : Memory} {a v : Word} (h : m.writeWord a v = .ok n) (b : Nat)
    (hb : b < a.toNat ∨ a.toNat + 3 < b) : n.readByte b = m.readByte b := by
  obtain ⟨_, rfl⟩ := Memory.writeWord_ok h
  simp only [Memory.readByte, Memory.writeByte]
  rw [readCells_writeCells_ne _ _ _ _ (by omega), readCells_writeCells_ne _ _ _ _ (by omega),
    readCells_writeCells_ne _ _ _ _ (by omega), readCells_writeCells_ne _ _ _ _ (by omega)]

/-- The memory of the reset state is in canonical form. -/
theorem reset_memory_wf : State.reset.mem.wf = true ∧ State.reset.imem.wf = true := by decide

end Sys2Proof.Machine
end

