-- ==== Sys2Proof/Laws/State.lean ====
section
/-! SUPPORT. The small lemmas of the state's updates: one lemma per field per update, and the register file's read-after-write
laws. No later proof unfolds a record update. -/

namespace Sys2Proof.Machine

variable (s t : State)

/-! `State.raise`. -/

@[simp] theorem State.raise_regs (k : FaultKind) : (s.raise k).regs = s.regs := rfl
@[simp] theorem State.raise_mem (k : FaultKind) : (s.raise k).mem = s.mem := rfl
@[simp] theorem State.raise_imem (k : FaultKind) : (s.raise k).imem = s.imem := rfl
@[simp] theorem State.raise_run (k : FaultKind) : (s.raise k).run = .faulted k := rfl
@[simp] theorem State.raise_topology (k : FaultKind) : (s.raise k).topology = s.topology := rfl
@[simp] theorem State.raise_termMode (k : FaultKind) : (s.raise k).termMode = s.termMode := rfl
@[simp] theorem State.raise_resultReg (k : FaultKind) : (s.raise k).resultReg = s.resultReg := rfl
@[simp] theorem State.raise_handlerRuns (k : FaultKind) : (s.raise k).handlerRuns = s.handlerRuns := rfl
@[simp] theorem State.raise_sysCalls (k : FaultKind) : (s.raise k).sysCalls = s.sysCalls := rfl

/-! `State.halt`. -/

@[simp] theorem State.halt_regs (v : Word) : (s.halt v).regs = s.regs := rfl
@[simp] theorem State.halt_mem (v : Word) : (s.halt v).mem = s.mem := rfl
@[simp] theorem State.halt_imem (v : Word) : (s.halt v).imem = s.imem := rfl
@[simp] theorem State.halt_run (v : Word) : (s.halt v).run = .halted v := rfl
@[simp] theorem State.halt_topology (v : Word) : (s.halt v).topology = s.topology := rfl
@[simp] theorem State.halt_termMode (v : Word) : (s.halt v).termMode = s.termMode := rfl
@[simp] theorem State.halt_resultReg (v : Word) : (s.halt v).resultReg = s.resultReg := rfl
@[simp] theorem State.halt_handlerRuns (v : Word) : (s.halt v).handlerRuns = s.handlerRuns := rfl
@[simp] theorem State.halt_sysCalls (v : Word) : (s.halt v).sysCalls = s.sysCalls := rfl

/-! `State.setReg`. -/

@[simp] theorem State.setReg_regs (r : RegName) (v : Word) : (s.setReg r v).regs = s.regs.set r v := rfl
@[simp] theorem State.setReg_mem (r : RegName) (v : Word) : (s.setReg r v).mem = s.mem := rfl
@[simp] theorem State.setReg_imem (r : RegName) (v : Word) : (s.setReg r v).imem = s.imem := rfl
@[simp] theorem State.setReg_run (r : RegName) (v : Word) : (s.setReg r v).run = s.run := rfl
@[simp] theorem State.setReg_topology (r : RegName) (v : Word) : (s.setReg r v).topology = s.topology := rfl
@[simp] theorem State.setReg_termMode (r : RegName) (v : Word) : (s.setReg r v).termMode = s.termMode := rfl
@[simp] theorem State.setReg_resultReg (r : RegName) (v : Word) : (s.setReg r v).resultReg = s.resultReg := rfl
@[simp] theorem State.setReg_handlerRuns (r : RegName) (v : Word) : (s.setReg r v).handlerRuns = s.handlerRuns := rfl
@[simp] theorem State.setReg_sysCalls (r : RegName) (v : Word) : (s.setReg r v).sysCalls = s.sysCalls := rfl

/-! `State.nextInvocation`. -/

@[simp] theorem State.nextInvocation_regs (rest : List Invocation) : (s.nextInvocation rest).regs = s.regs := rfl
@[simp] theorem State.nextInvocation_mem (rest : List Invocation) : (s.nextInvocation rest).mem = s.mem := rfl
@[simp] theorem State.nextInvocation_imem (rest : List Invocation) : (s.nextInvocation rest).imem = s.imem := rfl
@[simp] theorem State.nextInvocation_run (rest : List Invocation) : (s.nextInvocation rest).run = s.run := rfl
@[simp] theorem State.nextInvocation_topology (rest : List Invocation) : (s.nextInvocation rest).topology = s.topology := rfl
@[simp] theorem State.nextInvocation_termMode (rest : List Invocation) : (s.nextInvocation rest).termMode = s.termMode := rfl
@[simp] theorem State.nextInvocation_resultReg (rest : List Invocation) : (s.nextInvocation rest).resultReg = s.resultReg := rfl
@[simp] theorem State.nextInvocation_handlerRuns (rest : List Invocation) : (s.nextInvocation rest).handlerRuns = rest := rfl
@[simp] theorem State.nextInvocation_sysCalls (rest : List Invocation) : (s.nextInvocation rest).sysCalls = s.sysCalls + 1 := rfl

/-! Registers. -/

@[simp] theorem RegFile.get_zero (f : RegFile) : f.get .zero = 0 := rfl

theorem RegFile.get_set_same (f : RegFile) (r : RegName) (v : Word) (h : r ≠ .zero) : (f.set r v).get r = v := by
  cases r <;> first | exact absurd rfl h | rfl

theorem RegFile.get_set_ne (f : RegFile) (r q : RegName) (v : Word) (h : q ≠ r) : (f.set r v).get q = f.get q := by
  cases r <;> cases q <;> first | exact absurd rfl h | rfl

@[simp] theorem State.readReg_zero : s.readReg .zero = 0 := rfl

@[simp] theorem State.readReg_raise (k : FaultKind) (r : RegName) : (s.raise k).readReg r = s.readReg r := rfl

@[simp] theorem State.readReg_halt (v : Word) (r : RegName) : (s.halt v).readReg r = s.readReg r := rfl

@[simp] theorem State.readReg_nextInvocation (rest : List Invocation) (r : RegName) :
    (s.nextInvocation rest).readReg r = s.readReg r := rfl

@[simp] theorem State.pc_raise (k : FaultKind) : (s.raise k).pc = s.pc := rfl

@[simp] theorem State.pc_halt (v : Word) : (s.halt v).pc = s.pc := rfl

theorem State.readReg_setReg_same (r : RegName) (v : Word) (h : r ≠ .zero) : (s.setReg r v).readReg r = v :=
  RegFile.get_set_same _ _ _ h

theorem State.readReg_setReg_ne (r q : RegName) (v : Word) (h : q ≠ r) : (s.setReg r v).readReg q = s.readReg q :=
  RegFile.get_set_ne _ _ _ _ h

@[simp] theorem State.pc_setReg_pc (v : Word) : (s.setReg .programCounter v).pc = v := rfl

theorem State.pc_setReg_ne (r : RegName) (v : Word) (h : r ≠ .programCounter) : (s.setReg r v).pc = s.pc :=
  State.readReg_setReg_ne s r _ v (Ne.symm h)

/-! What stays the same. -/

theorem State.SameBut.refl (rs : List RegName) : s.SameBut s rs :=
  ⟨fun _ _ => rfl, ⟨rfl, fun _ => rfl⟩, ⟨rfl, rfl, rfl, rfl, rfl⟩, ⟨rfl, rfl⟩, rfl⟩

/-- A register write changes that register only. -/
theorem State.sameBut_setReg (r : RegName) (v : Word) (rs : List RegName) (h : r ∈ rs) : s.SameBut (s.setReg r v) rs :=
  ⟨fun q hq => s.readReg_setReg_ne r q v (fun e => hq (e ▸ h)), ⟨rfl, fun _ => rfl⟩, ⟨rfl, rfl, rfl, rfl, rfl⟩, ⟨rfl, rfl⟩, rfl⟩

theorem State.SameBut.trans {s t : State} {rs : List RegName} {u : State} (h1 : s.SameBut t rs) (h2 : t.SameBut u rs) :
    s.SameBut u rs := by
  obtain ⟨a1, ⟨b1, b1'⟩, ⟨c1, c2, c3, c4, c5⟩, ⟨d1, d2⟩, e1⟩ := h1
  obtain ⟨a2, ⟨b2, b2'⟩, ⟨x1, x2, x3, x4, x5⟩, ⟨y1, y2⟩, e2⟩ := h2
  exact ⟨fun q hq => (a2 q hq).trans (a1 q hq), ⟨b2.trans b1, fun b => (b2' b).trans (b1' b)⟩,
    ⟨x1.trans c1, x2.trans c2, x3.trans c3, x4.trans c4, x5.trans c5⟩, ⟨y1.trans d1, y2.trans d2⟩, e2.trans e1⟩

end Sys2Proof.Machine
end

