-- ==== Sys2Proof/Laws/Ops.lean ====
section
/-! SUPPORT. For each shared operation over the state, once, everything it can do. -/

namespace Sys2Proof.Machine

/-- All that a register write can answer (R25). -/
theorem State.writeReg_cases (s : State) (r : RegName) (v : Word) :
    (r = .zero ∧ s.writeReg r v = .error .illegalOperation)
    ∨ (r = .programCounter ∧ validPC v = false ∧ s.writeReg r v = .error (.illegalPC v))
    ∨ (r ≠ .zero ∧ (r = .programCounter → validPC v = true) ∧ s.writeReg r v = .ok (s.setReg r v)) := by
  unfold State.writeReg
  by_cases h0 : r = .zero
  · exact .inl ⟨h0, by simp [h0]⟩
  · by_cases h1 : r = .programCounter ∧ validPC v = false
    · exact .inr (.inl ⟨h1.1, h1.2, by simp [h1]⟩)
    · refine .inr (.inr ⟨h0, fun hr => ?_, by simp [h0, h1]⟩)
      cases hv : validPC v with
      | true => rfl
      | false => exact absurd ⟨hr, hv⟩ h1

theorem State.writeReg_ok {s t : State} {r : RegName} {v : Word} (h : s.writeReg r v = .ok t) :
    r ≠ .zero ∧ (r = .programCounter → validPC v = true) ∧ t = s.setReg r v := by
  rcases s.writeReg_cases r v with ⟨_, h'⟩ | ⟨_, _, h'⟩ | ⟨h1, h2, h'⟩
  · rw [h'] at h; cases h
  · rw [h'] at h; cases h
  · rw [h'] at h; exact ⟨h1, h2, by injection h with h; exact h.symm⟩

theorem State.writeReg_of_plain (s : State) {r : RegName} (v : Word) (h0 : r ≠ .zero) (h9 : r ≠ .programCounter) :
    s.writeReg r v = .ok (s.setReg r v) := by
  simp [State.writeReg, h0, h9]

theorem State.writeReg_pc (s : State) (v : Word) (h : validPC v = true) :
    s.writeReg .programCounter v = .ok (s.setReg .programCounter v) := by
  simp [State.writeReg, h]

/-- The advance's sum is the 32-bit sum (G2). -/
theorem wrap32_pc_add_four (v : Word) : wrap32 (v.toInt + 4) = v + 4 := by
  unfold wrap32
  rw [BitVec.ofInt_add, BitVec.ofInt_toInt]; rfl

/-- All that the default advance can do (R134). -/
theorem State.advance_cases (s : State) :
    (validPC (s.pc + 4) = true ∧ s.advance = s.setReg .programCounter (s.pc + 4))
    ∨ (validPC (s.pc + 4) = false ∧ s.advance = s.raise (.illegalPC (s.pc + 4))) := by
  unfold State.advance
  rw [wrap32_pc_add_four]
  rcases s.writeReg_cases .programCounter (s.pc + 4) with ⟨h, _⟩ | ⟨_, h1, h2⟩ | ⟨_, h1, h2⟩
  · cases h
  · exact .inr ⟨h1, by rw [h2]⟩
  · exact .inl ⟨h1 rfl, by rw [h2]⟩

/-- The end of a step with the advance: the fault of stage 3, or the advance after it. -/
theorem State.endWithAdvance_cases (s : State) (r : Except FaultKind State) :
    (∃ k, r = .error k ∧ s.endWithAdvance r = .next (s.raise k)) ∨ (∃ t, r = .ok t ∧ s.endWithAdvance r = .next t.advance) := by
  cases r with
  | error k => exact .inl ⟨k, rfl, rfl⟩
  | ok t => exact .inr ⟨t, rfl, rfl⟩

/-- The end of a taken jump. -/
theorem State.takeJump_cases (s : State) (t : Word) :
    (validPC t = true ∧ s.takeJump t = .next (s.setReg .programCounter t))
    ∨ (validPC t = false ∧ s.takeJump t = .next (s.raise (.illegalPC t))) := by
  unfold State.takeJump
  rcases s.writeReg_cases .programCounter t with ⟨h, _⟩ | ⟨_, h1, h2⟩ | ⟨_, h1, h2⟩
  · cases h
  · exact .inr ⟨h1, by rw [h2]; rfl⟩
  · exact .inl ⟨h1 rfl, by rw [h2]; rfl⟩

/-- If a store answers, only the array has changed, as `Memory.writeWord` says. -/
theorem State.writeWord_ok {s t : State} {a v : Word} (h : s.writeWord a v = .ok t) :
    ∃ m, s.mem.writeWord a v = .ok m ∧ t = { s with mem := m } := by
  unfold State.writeWord at h
  cases hm : s.mem.writeWord a v with
  | error k => rw [hm] at h; cases h
  | ok m => rw [hm] at h; exact ⟨m, rfl, by simpa [Except.map] using h.symm⟩

/-- All that one access of a handler can do: nothing, a register write, or a store. -/
theorem State.handlerOp_ok {s t : State} {op : HandlerOp} (h : s.handlerOp op = .ok t) :
    t = s ∨ (∃ r v, s.writeReg r v = .ok t) ∨ (∃ a v, s.writeWord a v = .ok t) := by
  cases op with
  | readReg r => injection h with h; exact .inl h.symm
  | writeReg r v => exact .inr (.inl ⟨r, v, h⟩)
  | readWord a =>
    refine .inl ?_
    simp only [State.handlerOp] at h
    cases hr : s.readWord a with
    | error k => rw [hr] at h; cases h
    | ok w => rw [hr] at h; simpa [Except.map] using h.symm
  | writeWord a v => exact .inr (.inr ⟨a, v, h⟩)
  | fetchInstruction a =>
    refine .inl ?_
    simp only [State.handlerOp] at h
    cases hr : s.fetchInstruction a with
    | error k => rw [hr] at h; cases h
    | ok w => rw [hr] at h; simpa [Except.map] using h.symm
  | hasNextInstruction a => injection h with h; exact .inl h.symm

/-- A relation that no access of a handler breaks is not broken by a list of accesses. -/
theorem State.handlerOps_rel (R : State → State → Prop) (hrefl : ∀ s, R s s) (htrans : ∀ s t u, R s t → R t u → R s u)
    (hop : ∀ s op t, s.handlerOp op = .ok t → R s t) (ops : List HandlerOp) (s : State) : R s (s.handlerOps ops).1 := by
  induction ops generalizing s with
  | nil => exact hrefl s
  | cons op rest ih =>
    simp only [State.handlerOps]
    split
    · next t h => exact htrans _ _ _ (hop _ _ _ h) (ih t)
    · exact hrefl s

/-- All that `SysCall` can do: a handler invocation that ends, or none that does. -/
theorem execSysCall_cases (s : State) :
    (∃ r rest, s.NextHandlerRun r rest ∧ execSysCall s = .next ((s.nextInvocation rest).runHandler r))
    ∨ (∃ rest, s.handlerRuns = .never :: rest ∧ execSysCall s = .fault .handlerNeverReturns) := by
  unfold execSysCall
  split
  · next h => exact .inl ⟨_, _, .inr ⟨h, rfl, rfl⟩, rfl⟩
  · next h => exact .inl ⟨_, _, .inl h, rfl⟩
  · next rest h => exact .inr ⟨rest, h, rfl⟩

/-- `SysCall` runs the next handler invocation, the free one included. -/
theorem execSysCall_of_nextHandlerRun {s : State} {r : HandlerRun} {rest : List Invocation} (h : s.NextHandlerRun r rest) :
    execSysCall s = .next ((s.nextInvocation rest).runHandler r) := by
  unfold execSysCall
  rcases h with h | ⟨h, rfl, rfl⟩ <;> rw [h]

/-- All that a handler invocation can leave: a fault of an access, an unrecognised identifier, or the advance after it. -/
theorem State.runHandler_cases (s : State) (r : HandlerRun) :
    (∃ k, (s.handlerOps r.ops).2 = some k ∧ s.runHandler r = (s.handlerOps r.ops).1.raise k)
    ∨ ((s.handlerOps r.ops).2 = none ∧ r.ending = .unknownSysCall
        ∧ s.runHandler r = (s.handlerOps r.ops).1.raise (.unknownSysCall (s.readReg .call1)))
    ∨ ((s.handlerOps r.ops).2 = none ∧ r.ending = .returns ∧ s.runHandler r = (s.handlerOps r.ops).1.advance) := by
  unfold State.runHandler
  rcases hs : s.handlerOps r.ops with ⟨t, _ | k⟩
  · cases he : r.ending with
    | returns => exact .inr (.inr ⟨rfl, rfl, rfl⟩)
    | unknownSysCall => exact .inr (.inl ⟨rfl, rfl, rfl⟩)
  · exact .inl ⟨k, rfl, rfl⟩

/-- All that a step can do. -/
theorem step_cases (s : State) :
    (∃ v, s.run = .halted v ∧ step s = .fault (.alreadyHalted v))
    ∨ (∃ k, s.run = .faulted k ∧ step s = .fault (.alreadyFaulted k))
    ∨ (s.run = .running ∧ s.termMode = .runOffEnd ∧ s.hasNextInstruction s.pc = false
        ∧ step s = .next (s.halt (s.readReg s.resultReg)))
    ∨ (∃ k, s.run = .running ∧ s.fetchInstruction s.pc = .error k ∧ step s = .next (s.raise k))
    ∨ (∃ raw e, s.run = .running ∧ s.fetchInstruction s.pc = .ok raw ∧ decode raw = .error e
        ∧ step s = .next (s.raise (.illegalInstruction raw s.pc)))
    ∨ (∃ raw i, s.run = .running ∧ s.fetchInstruction s.pc = .ok raw ∧ decode raw = .ok i ∧ step s = exec i s) := by
  unfold step
  cases hr : s.run with
  | halted v => exact .inl ⟨v, rfl, rfl⟩
  | faulted k => exact .inr (.inl ⟨k, rfl, rfl⟩)
  | running =>
    refine .inr (.inr ?_)
    simp only [State.runStep]
    split
    · next h =>
      refine .inl ⟨trivial, ?_⟩
      unfold State.ranOffEnd at h
      cases ht : s.termMode with
      | endInstr => rw [ht] at h; cases h
      | runOffEnd => rw [ht] at h; exact ⟨rfl, by simpa using h, rfl⟩
    · refine .inr ?_
      simp only [State.runStages]
      cases hf : s.fetchInstruction s.pc with
      | error k => exact .inl ⟨k, trivial, rfl, rfl⟩
      | ok raw =>
        refine .inr ?_
        simp only [State.runRaw]
        cases hd : decode raw with
        | error e => exact .inl ⟨raw, e, trivial, rfl, hd, rfl⟩
        | ok i => exact .inr ⟨raw, i, trivial, rfl, hd, rfl⟩

end Sys2Proof.Machine
end

