-- ==== Sys2Proof/Laws/PerInstr.lean ====
section
/-! SUPPORT. The statements made per instruction. `OpcodeByte`: the first byte of an instruction's encoding is the number of its own
opcode, and the decoder takes that opcode from it (spec/30_encoding.md R91, R100, R105). -/

namespace Sys2Proof.Laws

/-- The opcode of an instruction value (R101). -/
def opcodeOf : Instr → Opcode
  | .addI _ _ _ => .addI
  | .subI _ _ _ => .subI
  | .mulI _ _ _ => .mulI
  | .divI _ _ _ => .divI
  | .addN _ _ _ => .addN
  | .subN _ _ _ => .subN
  | .mulN _ _ _ => .mulN
  | .divN _ _ _ => .divN
  | .loadI _ _ _ => .loadI
  | .storeI _ _ _ => .storeI
  | .setILow _ _ => .setILow
  | .setIHigh _ _ => .setIHigh
  | .jump _ _ => .jump
  | .jumpZero _ _ _ => .jumpZero
  | .jumpGT _ _ _ => .jumpGT
  | .endRun _ => .endRun
  | .sysCall => .sysCall

/-- The encoding's first byte is the opcode's number, and names that opcode only. -/
def OpcodeByte.Statement (i : Instr) : Prop :=
  (encode i).b0 = opcodeByte (opcodeOf i) ∧ opcodeOfByte (encode i).b0 = some (opcodeOf i)

theorem OpcodeByte.addI (rd : RegName) (r1 : RegName) (r2 : RegName) : OpcodeByte.Statement (.addI rd r1 r2) := ⟨rfl, opcodeOfByte_opcodeByte .addI⟩

theorem OpcodeByte.subI (rd : RegName) (r1 : RegName) (r2 : RegName) : OpcodeByte.Statement (.subI rd r1 r2) := ⟨rfl, opcodeOfByte_opcodeByte .subI⟩

theorem OpcodeByte.mulI (rd : RegName) (r1 : RegName) (r2 : RegName) : OpcodeByte.Statement (.mulI rd r1 r2) := ⟨rfl, opcodeOfByte_opcodeByte .mulI⟩

theorem OpcodeByte.divI (rd : RegName) (r1 : RegName) (r2 : RegName) : OpcodeByte.Statement (.divI rd r1 r2) := ⟨rfl, opcodeOfByte_opcodeByte .divI⟩

theorem OpcodeByte.addN (rd : RegName) (r1 : RegName) (n : Int) : OpcodeByte.Statement (.addN rd r1 n) := ⟨rfl, opcodeOfByte_opcodeByte .addN⟩

theorem OpcodeByte.subN (rd : RegName) (r1 : RegName) (n : Int) : OpcodeByte.Statement (.subN rd r1 n) := ⟨rfl, opcodeOfByte_opcodeByte .subN⟩

theorem OpcodeByte.mulN (rd : RegName) (r1 : RegName) (n : Int) : OpcodeByte.Statement (.mulN rd r1 n) := ⟨rfl, opcodeOfByte_opcodeByte .mulN⟩

theorem OpcodeByte.divN (rd : RegName) (r1 : RegName) (n : Int) : OpcodeByte.Statement (.divN rd r1 n) := ⟨rfl, opcodeOfByte_opcodeByte .divN⟩

theorem OpcodeByte.loadI (rd : RegName) (ra : RegName) (n : Int) : OpcodeByte.Statement (.loadI rd ra n) := ⟨rfl, opcodeOfByte_opcodeByte .loadI⟩

theorem OpcodeByte.storeI (r1 : RegName) (ra : RegName) (n : Int) : OpcodeByte.Statement (.storeI r1 ra n) := ⟨rfl, opcodeOfByte_opcodeByte .storeI⟩

theorem OpcodeByte.setILow (rd : RegName) (n : Int) : OpcodeByte.Statement (.setILow rd n) := ⟨rfl, opcodeOfByte_opcodeByte .setILow⟩

theorem OpcodeByte.setIHigh (rd : RegName) (n : Int) : OpcodeByte.Statement (.setIHigh rd n) := ⟨rfl, opcodeOfByte_opcodeByte .setIHigh⟩

theorem OpcodeByte.jump (ra : RegName) (n : Int) : OpcodeByte.Statement (.jump ra n) := ⟨rfl, opcodeOfByte_opcodeByte .jump⟩

theorem OpcodeByte.jumpZero (rc : RegName) (ra : RegName) (n : Int) : OpcodeByte.Statement (.jumpZero rc ra n) := ⟨rfl, opcodeOfByte_opcodeByte .jumpZero⟩

theorem OpcodeByte.jumpGT (rc : RegName) (ra : RegName) (n : Int) : OpcodeByte.Statement (.jumpGT rc ra n) := ⟨rfl, opcodeOfByte_opcodeByte .jumpGT⟩

theorem OpcodeByte.endRun (rout : RegName) : OpcodeByte.Statement (.endRun rout) := ⟨rfl, opcodeOfByte_opcodeByte .endRun⟩

theorem OpcodeByte.sysCall : OpcodeByte.Statement (.sysCall) := ⟨rfl, opcodeOfByte_opcodeByte .sysCall⟩

end Sys2Proof.Laws
end

