-- ==== Sys2Proof/Laws/Run.lean ====
section
/-! SUPPORT. The run interface: its equation in each run state, what a return says, and that a return does not depend on the bound. -/

namespace Sys2Proof.Machine

theorem State.runReturn_eq_none {s : State} : s.runReturn = none ↔ s.run = .running := by
  unfold State.runReturn; cases s.run <;> simp

theorem State.runReturn_eq_result {s : State} {v : Word} : s.runReturn = some (.result v) ↔ s.run = .halted v := by
  unfold State.runReturn; cases s.run <;> simp

theorem State.runReturn_eq_fault {s : State} {k : FaultKind} : s.runReturn = some (.fault k) ↔ s.run = .faulted k := by
  unfold State.runReturn; cases s.run <;> simp

/-- In a terminal state the run interface returns at once. -/
theorem State.interpret_of_runReturn {s : State} {r : RunReturn} (h : s.runReturn = some r) (n : Nat) :
    State.interpret n s = .returned r s := by
  unfold State.interpret; rw [h]

theorem State.interpret_zero_of_running {s : State} (h : s.run = .running) : State.interpret 0 s = .running s := by
  unfold State.interpret; rw [State.runReturn_eq_none.mpr h]

/-- A step of a running machine is one step of the run. -/
theorem State.interpret_succ_of_next {s t : State} (h : s.run = .running) (hs : step s = .next t) (n : Nat) :
    State.interpret (n + 1) s = State.interpret n t := by
  rw [State.interpret, State.runReturn_eq_none.mpr h]; simp only [hs]

/-- The run interface returns what the terminal state says, whatever the bound. -/
theorem State.interpret_returned {n : Nat} {s t : State} {r : RunReturn} (h : State.interpret n s = .returned r t) :
    t.runReturn = some r := by
  induction n generalizing s with
  | zero =>
    cases hr : s.runReturn with
    | some r' => rw [State.interpret_of_runReturn hr] at h; cases h; exact hr
    | none => rw [State.interpret, hr] at h; cases h
  | succ n ih =>
    cases hr : s.runReturn with
    | some r' => rw [State.interpret_of_runReturn hr] at h; cases h; exact hr
    | none =>
      rw [State.interpret, hr] at h
      cases hs : step s with
      | next u => simp only [hs] at h; exact ih h
      | fault f => simp only [hs] at h; cases h
      | refused f => simp only [hs] at h; cases h

/-- A larger bound returns the same. -/
theorem State.interpret_returned_succ {n : Nat} {s t : State} {r : RunReturn} (h : State.interpret n s = .returned r t) :
    State.interpret (n + 1) s = .returned r t := by
  induction n generalizing s with
  | zero =>
    cases hr : s.runReturn with
    | some r' => rw [State.interpret_of_runReturn hr] at h ⊢; exact h
    | none => rw [State.interpret, hr] at h; cases h
  | succ n ih =>
    cases hr : s.runReturn with
    | some r' => rw [State.interpret_of_runReturn hr] at h ⊢; exact h
    | none =>
      rw [State.interpret, hr] at h ⊢
      cases hs : step s with
      | next u => simp only [hs] at h ⊢; exact ih h
      | fault f => simp only [hs] at h; cases h
      | refused f => simp only [hs] at h; cases h

theorem State.interpret_returned_add {n : Nat} {s t : State} {r : RunReturn} (h : State.interpret n s = .returned r t) (m : Nat) :
    State.interpret (n + m) s = .returned r t := by
  induction m with
  | zero => exact h
  | succ m ih => exact State.interpret_returned_succ ih

end Sys2Proof.Machine
end

