-- ==== Sys2Proof/Tests/Slice0.lean ====
section
/-! SUPPORT. Tests against the vectors of spec/95_test_vectors.md (named in each comment), and for every statement with hypotheses
a witness `witness_<statement>` that concrete operands and a concrete state meet them, clause by clause at boundary values. -/

namespace Sys2Proof.Tests

open Sys2Proof Sys2Proof.Machine

/-! Helpers: a 32-byte machine whose bytes 16 to 19 are 78 56 34 12 (V-LS), registers set on it, and one field of an outcome. -/

def small : State := { State.reset with mem := ⟨32, [(16, 0x78), (17, 0x56), (18, 0x34), (19, 0x12)]⟩ }

def regsOn (s : State) (rs : List (RegName × Word)) : State := rs.foldl (fun t e => t.setReg e.1 e.2) s

def withRegs (rs : List (RegName × Word)) : State := regsOn small rs

/-- A `Segregated` machine with the given instruction bytes, termination mode and registers. -/
def withCode (bs : List Byte) (mode : TermMode) (rs : List (RegName × Word)) : State :=
  { withRegs rs with imem := Memory.ofBytes bs, termMode := mode }

/-- A `Unified` machine whose memory is the given bytes. -/
def unifiedWith (bs : List Byte) (mode : TermMode) : State :=
  { State.reset with mem := Memory.ofBytes bs, topology := .unified, termMode := mode }

/-- The same machine with the coming handler outcome fixed. -/
def withHandler (s : State) (inv : Invocation) : State := { s with handlerRuns := [inv] }

def regOf (o : Host.Outcome State Fault Refusal) (r : RegName) : Option Word :=
  match o with
  | .next s => some (s.readReg r)
  | .fault _ => none
  | .refused _ => none

def runOf (o : Host.Outcome State Fault Refusal) : Option RunState :=
  match o with
  | .next s => some s.run
  | .fault _ => none
  | .refused _ => none

def wordAt (o : Host.Outcome State Fault Refusal) (a : Word) : Option Word :=
  match o with
  | .next s => answer (s.readWord a)
  | .fault _ => none
  | .refused _ => none

/-! WellFormed: each check refuses an ill-formed term on either side of its range, and accepts the ends (R95, R96). -/

theorem test_wellFormed_addN : (Instr.addN .save1 .zero 128).wellFormed = false ∧ (Instr.addN .save1 .zero (-129)).wellFormed = false
    ∧ (Instr.addN .save1 .zero 127).wellFormed = true := by decide
theorem test_wellFormed_subN : (Instr.subN .save1 .zero 128).wellFormed = false ∧ (Instr.subN .save1 .zero (-129)).wellFormed = false := by decide
theorem test_wellFormed_mulN : (Instr.mulN .save1 .zero 128).wellFormed = false ∧ (Instr.mulN .save1 .zero (-129)).wellFormed = false := by decide
theorem test_wellFormed_divN : (Instr.divN .save1 .zero 128).wellFormed = false ∧ (Instr.divN .save1 .zero (-129)).wellFormed = false := by decide
theorem test_wellFormed_loadI : (Instr.loadI .save1 .zero 128).wellFormed = false ∧ (Instr.loadI .save1 .zero (-129)).wellFormed = false := by decide
theorem test_wellFormed_storeI : (Instr.storeI .save1 .zero 128).wellFormed = false ∧ (Instr.storeI .save1 .zero (-129)).wellFormed = false := by decide
theorem test_wellFormed_jumpZero : (Instr.jumpZero .save1 .zero 128).wellFormed = false ∧ (Instr.jumpZero .save1 .zero (-129)).wellFormed = false := by decide
theorem test_wellFormed_jumpGT : (Instr.jumpGT .save1 .zero 128).wellFormed = false ∧ (Instr.jumpGT .save1 .zero (-129)).wellFormed = false := by decide
theorem test_wellFormed_setILow : (Instr.setILow .save1 32768).wellFormed = false ∧ (Instr.setILow .save1 (-32769)).wellFormed = false
    ∧ (Instr.setILow .save1 (-32768)).wellFormed = true := by decide
theorem test_wellFormed_setIHigh : (Instr.setIHigh .save1 32768).wellFormed = false ∧ (Instr.setIHigh .save1 (-32769)).wellFormed = false := by decide
theorem test_wellFormed_jump : (Instr.jump .save1 32768).wellFormed = false ∧ (Instr.jump .save1 (-32769)).wellFormed = false := by decide

/-! Decode: one word for every constructor, written from R93 and R100 (S1, V-ENC, V-AR, V-AN). -/

theorem test_decode_addI : decode ⟨0x00, 0x05, 0x01, 0x02⟩ = .ok (.addI .call1 .save1 .save2) := by decide
theorem test_decode_subI : decode ⟨0x01, 0x05, 0x01, 0x02⟩ = .ok (.subI .call1 .save1 .save2) := by decide
theorem test_decode_mulI : decode ⟨0x02, 0x05, 0x01, 0x02⟩ = .ok (.mulI .call1 .save1 .save2) := by decide
theorem test_decode_divI : decode ⟨0x03, 0x0A, 0x09, 0x00⟩ = .ok (.divI .stackPointer .programCounter .zero) := by decide
theorem test_decode_addN : decode ⟨0x04, 0x01, 0x02, 0xFF⟩ = .ok (.addN .save1 .save2 (-1)) := by decide
theorem test_decode_subN : decode ⟨0x05, 0x05, 0x05, 0x80⟩ = .ok (.subN .call1 .call1 (-128)) := by decide
theorem test_decode_mulN : decode ⟨0x06, 0x02, 0x01, 0x80⟩ = .ok (.mulN .save2 .save1 (-128)) := by decide
theorem test_decode_divN : decode ⟨0x07, 0x02, 0x01, 0x00⟩ = .ok (.divN .save2 .save1 0) := by decide
theorem test_decode_loadI : decode ⟨0x08, 0x03, 0x01, 0x7F⟩ = .ok (.loadI .save3 .save1 127) := by decide
theorem test_decode_storeI : decode ⟨0x09, 0x05, 0x01, 0xFF⟩ = .ok (.storeI .call1 .save1 (-1)) := by decide
theorem test_decode_setILow : decode ⟨0x0A, 0x01, 0x34, 0x12⟩ = .ok (.setILow .save1 0x1234) := by decide
theorem test_decode_setIHigh : decode ⟨0x0B, 0x01, 0x00, 0x80⟩ = .ok (.setIHigh .save1 (-32768)) := by decide
theorem test_decode_jump : decode ⟨0x0C, 0x09, 0xFD, 0xFF⟩ = .ok (.jump .programCounter (-3)) := by decide
theorem test_decode_jumpZero : decode ⟨0x0D, 0x05, 0x09, 0x80⟩ = .ok (.jumpZero .call1 .programCounter (-128)) := by decide
theorem test_decode_jumpGT : decode ⟨0x0E, 0x05, 0x09, 0xFF⟩ = .ok (.jumpGT .call1 .programCounter (-1)) := by decide
theorem test_decode_end : decode ⟨0x0F, 0x0A, 0xFF, 0xFF⟩ = .ok (.endRun .stackPointer) := by decide
theorem test_decode_sysCall : decode ⟨0x10, 0xFF, 0xFF, 0xFF⟩ = .ok .sysCall := by decide

/-- V-ENC: the first unused opcode, and a register byte 11 in each register position of each format. -/
theorem test_decode_rejects : decode ⟨0x11, 0, 0, 0⟩ = .error (.unknownOpcode 0x11) ∧ decode ⟨0x00, 0x0B, 0, 0⟩ = .error (.unknownRegister 0x0B)
    ∧ decode ⟨0x00, 0x01, 0x02, 0xFF⟩ = .error (.unknownRegister 0xFF) ∧ decode ⟨0x04, 0x01, 0x0B, 0⟩ = .error (.unknownRegister 0x0B)
    ∧ decode ⟨0x0A, 0x0B, 0, 0⟩ = .error (.unknownRegister 0x0B) ∧ decode ⟨0x0F, 0x0B, 0, 0⟩ = .error (.unknownRegister 0x0B) := by decide

/-- S1: the encoder on the samples with an immediate of each sign. -/
theorem test_encode : encode (.jump .programCounter (-3)) = ⟨0x0C, 0x09, 0xFD, 0xFF⟩ ∧ encode (.setILow .save1 0x1234) = ⟨0x0A, 0x01, 0x34, 0x12⟩
    ∧ encode (.mulN .save2 .save1 (-128)) = ⟨0x06, 0x02, 0x01, 0x80⟩ ∧ encode (.endRun .call1) = ⟨0x0F, 0x05, 0, 0⟩ := by decide

/-- The host's numbering: `04 05 00 05` read as one little-endian number. -/
theorem test_decodeTableWord : decodeTableWord 32 0x05000504 = some (.addN .call1 .zero 5) ∧ decodeTableWord 8 0x10 = some .sysCall
    ∧ decodeTableWord 32 0x11 = none := by decide

/-! One step of each instruction (V-AR, V-AN). -/

theorem test_addI_wraps : regOf (exec (.addI .call1 .save1 .save2) (withRegs [(.save1, 0x7FFFFFFF), (.save2, 1)])) .call1 = some 0x80000000 := by decide
theorem test_addI_destination_is_source : regOf (exec (.addI .save1 .save1 .save1) (withRegs [(.save1, 0x40000000)])) .save1 = some 0x80000000 := by decide
theorem test_subI_is_second_minus_first : regOf (exec (.subI .call1 .save1 .save2) (withRegs [(.save1, 3), (.save2, 10)])) .call1 = some 7 := by decide
theorem test_subI_negates_minimum : regOf (exec (.subI .call1 .save1 .zero) (withRegs [(.save1, 0x80000000)])) .call1 = some 0x80000000 := by decide
theorem test_mulI_low_half : regOf (exec (.mulI .call1 .save1 .save2) (withRegs [(.save1, 0x10000), (.save2, 0x10000)])) .call1 = some 0 := by decide
theorem test_mulI_signed : regOf (exec (.mulI .call1 .save1 .save2) (withRegs [(.save1, 0xFFFFFFFD), (.save2, 5)])) .call1 = some 0xFFFFFFF1 := by decide
theorem test_divI_truncates : regOf (exec (.divI .call1 .save1 .save2) (withRegs [(.save1, 2), (.save2, 0xFFFFFFF9)])) .call1 = some 0xFFFFFFFD := by decide
theorem test_divI_minimum_by_minus_one : regOf (exec (.divI .call1 .save1 .save2) (withRegs [(.save1, 0xFFFFFFFF), (.save2, 0x80000000)])) .call1
    = some 0x80000000 := by decide
theorem test_addN_wraps : regOf (exec (.addN .call1 .call1 127) (withRegs [(.call1, 0x7FFFFFFF)])) .call1 = some 0x8000007E := by decide
theorem test_addN_to_pc_advances : regOf (exec (.addN .programCounter .programCounter 8) (withRegs [(.programCounter, 8)])) .programCounter = some 0x14 := by decide
theorem test_subN_minus_128 : regOf (exec (.subN .call1 .call1 (-128)) (withRegs [(.call1, 0)])) .call1 = some 0x80 := by decide
theorem test_subN_advances : regOf (exec (.subN .call1 .call1 1) (withRegs [(.call1, 5)])) .programCounter = some 4 := by decide
theorem test_mulN_negative : regOf (exec (.mulN .save2 .save1 (-2)) (withRegs [(.save1, 6)])) .save2 = some 0xFFFFFFF4 := by decide
theorem test_mulN_to_zero_faults : runOf (exec (.mulN .zero .save1 4) (withRegs [(.save1, 6)])) = some (.faulted .illegalOperation) := by decide
theorem test_divN_negative_divisor : regOf (exec (.divN .save2 .save1 (-128)) (withRegs [(.save1, 1000)])) .save2 = some 0xFFFFFFF9 := by decide
theorem test_divN_by_zero_before_write : runOf (exec (.divN .zero .save1 0) (withRegs [(.save1, 100)])) = some (.faulted .arithmeticFault) := by decide

/-! V-LS. -/

theorem test_loadI_negative_offset : regOf (exec (.loadI .call1 .save1 (-1)) (withRegs [(.save1, 20)])) .call1 = some 0x12345678 := by decide
theorem test_loadI_bounds_before_alignment : runOf (exec (.loadI .zero .save1 0) (withRegs [(.save1, 29)])) = some (.faulted (.memoryOutOfRange 29 32)) := by decide
theorem test_storeI_little_endian : wordAt (exec (.storeI .call1 .save1 2) (withRegs [(.call1, 0x01020304), (.save1, 8)])) 16 = some 0x01020304
    ∧ (small.writeWord 8 0x12345678).map (fun s => s.mem.readByte 8) = .ok 0x78 := by decide
theorem test_storeI_misaligned : runOf (exec (.storeI .call1 .save1 0) (withRegs [(.save1, 6)])) = some (.faulted (.memoryAlignment 6)) := by decide

/-! V-SET. -/

theorem test_setILow_zero_extends : regOf (exec (.setILow .save1 (-1)) (withRegs [(.save1, 0x12340000)])) .save1 = some 0x1234FFFF := by decide
theorem test_setILow_ors : regOf (exec (.setILow .save1 0x00F0) (withRegs [(.save1, 0x0F)])) .save1 = some 0xFF := by decide
theorem test_setIHigh_keeps_low_half : regOf (exec (.setIHigh .save1 (-32768)) (withRegs [(.save1, 0x1234)])) .save1 = some 0x80001234 := by decide
theorem test_setIHigh_pc_negative : runOf (exec (.setIHigh .programCounter (-32768)) (withRegs [(.programCounter, 4)])) = some (.faulted (.illegalPC 0x80000004)) := by decide

/-! V-JMP, V-END. -/

theorem test_jump_back : regOf (exec (.jump .programCounter (-3)) (withRegs [(.programCounter, 20)])) .programCounter = some 8 := by decide
theorem test_jump_wraps_and_faults : runOf (exec (.jump .save1 1) (withRegs [(.programCounter, 8), (.save1, 0x7FFFFFFC)])) = some (.faulted (.illegalPC 0x80000000)) := by decide
theorem test_jumpZero_taken : regOf (exec (.jumpZero .call1 .programCounter 3) (withRegs [(.programCounter, 8)])) .programCounter = some 0x14 := by decide
theorem test_jumpZero_not_taken_bad_base : regOf (exec (.jumpZero .call1 .save1 3) (withRegs [(.programCounter, 8), (.call1, 1), (.save1, 3)])) .programCounter
    = some 0xC := by decide
theorem test_jumpGT_taken : regOf (exec (.jumpGT .call1 .programCounter (-1)) (withRegs [(.programCounter, 8), (.call1, 4)])) .programCounter = some 4 := by decide
theorem test_jumpGT_negative : regOf (exec (.jumpGT .call1 .programCounter (-1)) (withRegs [(.programCounter, 8), (.call1, 0x80000000)])) .programCounter
    = some 0xC := by decide
theorem test_end_result : runOf (exec (.endRun .programCounter) (withRegs [(.programCounter, 12)])) = some (.halted 12)
    ∧ regOf (exec (.endRun .call1) (withRegs [(.call1, 42)])) .programCounter = some 0 := by decide

/-! V-SYS: the reference handler, and handlers that are fixtures. -/

/-- `H_console` as the handler of the next `SysCall`. -/
def console (rs : List (RegName × Word)) : State := withHandler (withRegs rs) (.finishes (consoleRun (withRegs rs).readReg))

/-- A fixture handler as the handler of the next `SysCall`, at pc = 8. -/
def fixture (ops : List HandlerOp) : State := withHandler (withRegs [(.programCounter, 8)]) (.finishes ⟨ops, .returns⟩)

theorem test_sysCall_console : regOf (exec .sysCall (console [(.call1, 1), (.call2, 0x80), (.call4, 7)])) .call4 = some 1
    ∧ runOf (exec .sysCall (console [(.call1, 2)])) = some (.faulted (.unknownSysCall 2))
    ∧ consoleSink [] (withRegs [(.call1, 1), (.call2, 0x41)]).readReg = [0x41] := by decide
theorem test_sysCall_fixtures : regOf (exec .sysCall (fixture [.writeReg .programCounter 0x20])) .programCounter = some 0x24
    ∧ regOf (exec .sysCall (fixture [.writeReg .save1 5, .writeReg .zero 1])) .save1 = some 5
    ∧ runOf (exec .sysCall (fixture [.writeReg .save1 5, .writeReg .zero 1])) = some (.faulted .illegalOperation)
    ∧ runOf (exec .sysCall (fixture [.writeWord 2 9])) = some (.faulted (.memoryAlignment 2))
    ∧ regOf (exec .sysCall (fixture [.writeReg .programCounter 0x7FFFFFFC])) .programCounter = some 0x7FFFFFFC := by decide

/-! V-STEP, reset and construction. -/

theorem test_step_past_the_end : runOf (step (withCode [4, 5, 0, 3] .endInstr [(.programCounter, 4)])) = some (.faulted (.memoryOutOfRange 4 4))
    ∧ runOf (step (withCode [4, 5, 0, 3, 0, 0] .runOffEnd [(.programCounter, 4), (.call1, 3)])) = some (.halted 3) := by decide
theorem test_step_illegal_instruction : runOf (step (withCode [4, 5, 0, 3, 0x11, 0, 0, 0] .endInstr [(.programCounter, 4)]))
    = some (.faulted (.illegalInstruction ⟨0x11, 0, 0, 0⟩ 4)) := by decide
theorem test_step_unified : regOf (step (unifiedWith [4, 5, 0, 3] .runOffEnd)) .call1 = some 3 := by decide
/-- V-STEP: `Segregated` with `ILEN = 0` in `EndInstr` mode, from reset. -/
theorem test_step_from_reset : runOf (step State.reset) = some (.faulted (.memoryOutOfRange 0 0)) := by decide
/-- `AddN Call1, Zero, 5` placed as the next instruction. -/
theorem test_withFetchWord : regOf (step (State.reset.withFetchWord 32 0x05000504)) .call1 = some 5
    ∧ regOf (step ((unifiedWith [] .endInstr).withFetchWord 32 0x05000504)) .call1 = some 5 := by decide
/-- The run interface: the result of two instructions, a fault, a loop (`Jump PC, 0`) that never returns, a handler that hangs. -/
theorem test_interpret : State.interpret 2 (withCode [4, 5, 0, 3, 0x0F, 5, 0, 0] .endInstr [])
      = .returned (.result 3) ((withCode [4, 5, 0, 3, 0x0F, 5, 0, 0] .endInstr [(.call1, 3), (.programCounter, 4)]).halt 3)
    ∧ State.interpret 1 State.reset = .returned (.fault (.memoryOutOfRange 0 0)) (State.reset.raise (.memoryOutOfRange 0 0))
    ∧ State.interpret 2 (withCode [0x0C, 9, 0, 0] .endInstr []) = .running (withCode [0x0C, 9, 0, 0] .endInstr [])
    ∧ State.interpret 2 (withHandler (withCode [0x10, 0, 0, 0] .endInstr []) .never)
      = .hung (withHandler (withCode [0x10, 0, 0, 0] .endInstr []) .never) := by decide
/-- R65: the formula's wrap below -2^31 gives an address at the top (notes/assumptions/20.md). -/
theorem test_scaledAddress_wraps_low : (withRegs [(.save1, 0x80000000)]).effectiveAddress .save1 (-2) = 0x7FFFFFF8
    ∧ regOf (exec (.jump .save1 (-1)) (withRegs [(.save1, 0x80000000)])) .programCounter = some 0x7FFFFFFC := by decide
theorem test_reset_is_a_construction : State.construct paramsAtReset = .ok State.reset := by decide
/-- U14: each rejection by its name. -/
theorem test_construct_rejects : State.construct { paramsAtReset with memSize := 2147483648 } = .error .memSizeTooLarge
    ∧ State.construct { paramsAtReset with memSize := 2, memInit := some [1] } = .error .memInitLength
    ∧ State.construct { paramsAtReset with topology := .unified } = .error .imemInUnified
    ∧ State.construct { paramsAtReset with imem := none } = .error .imemMissing := by decide
/-- S2 on a small array: a write of the fill value removes the entry, so that equal memories are equal data. -/
theorem test_memory_canonical : ((small.mem.writeByte 16 0).writeByte 17 0).cells = [(18, 0x34), (19, 0x12)] ∧ small.mem.wf = true
    ∧ (Memory.mk 8 [(3, 0)]).wf = false ∧ (Memory.mk 8 [(4, 1), (3, 1)]).wf = false ∧ (Memory.mk 8 [(8, 1)]).wf = false := by decide

/-! Witnesses: the hypotheses of each statement that has some, met together; one line a clause, at boundary values. -/

/-- The largest pc whose successor is valid. -/
def lastPC : State := withRegs [(.programCounter, 0x7FFFFFF8), (.save1, 20), (.save2, 3)]
/-- The pc whose advance faults. -/
def topPC : State := withRegs [(.programCounter, 0x7FFFFFFC), (.save1, 20), (.save2, 3), (.save3, 16)]

theorem witness_RegisterWritePolicy : (0x80000000 : Word).toInt < 0 ∧ (6 : Word).toNat % 4 ≠ 0
    ∧ (0 ≤ (0x7FFFFFFC : Word).toInt ∧ (0x7FFFFFFC : Word).toNat % 4 = 0) ∧ RegName.stackPointer ≠ .zero := by decide
theorem witness_ReadWordChecksThenReads : ((-4 : Word).toInt < 0 ∧ (29 : Word).toInt + 4 > small.mem.size)
    ∧ (0 ≤ (26 : Word).toInt ∧ (26 : Word).toInt + 4 ≤ small.mem.size ∧ (26 : Word).toNat % 4 ≠ 0)
    ∧ (0 ≤ (28 : Word).toInt ∧ (28 : Word).toInt + 4 ≤ small.mem.size ∧ (28 : Word).toNat % 4 = 0) := by decide
theorem witness_WriteWordChecksThenWrites : small.mem.wf = true ∧ ((0x80000000 : Word).toInt < 0 ∧ (32 : Word).toInt + 4 > small.mem.size)
    ∧ (0 ≤ (1 : Word).toInt ∧ (1 : Word).toInt + 4 ≤ small.mem.size ∧ (1 : Word).toNat % 4 ≠ 0)
    ∧ (0 ≤ (0 : Word).toInt ∧ (0 : Word).toInt + 4 ≤ small.mem.size ∧ (0 : Word).toNat % 4 = 0) := by decide

/-- A `Segregated` machine of two instructions, and a `Unified` one of two words. -/
def twoInstr : State := withCode [4, 5, 0, 3, 0x0F, 5, 0, 0] .endInstr [(.programCounter, 4)]
def twoWords : State := unifiedWith [4, 5, 0, 3, 0x0F, 5, 0, 0] .endInstr

theorem witness_FetchReadsTheTopologysArray : (twoInstr.topology = .segregated ∧ twoWords.topology = .unified)
    ∧ ((-4 : Word).toInt < 0 ∧ (5 : Word).toInt + 4 > twoInstr.imem.size)
    ∧ (0 ≤ (3 : Word).toInt ∧ (3 : Word).toInt + 4 ≤ twoInstr.imem.size ∧ (3 : Word).toNat % 4 ≠ 0)
    ∧ (0 ≤ (4 : Word).toInt ∧ (4 : Word).toInt + 4 ≤ twoWords.mem.size ∧ (4 : Word).toNat % 4 = 0) := by decide
theorem witness_HasNextIffFetchable : (twoInstr.topology = .segregated ∧ twoWords.topology = .unified) ∧ (4 : Word).toNat % 4 = 0
    ∧ twoInstr.hasNextInstruction 4 = true ∧ twoWords.hasNextInstruction 8 = false := by decide
theorem witness_ScaledAddressIsBasePlusFourOffsets : (-32768 : Int) ≤ -32768 ∧ (-32768 : Int) ≤ 32767 ∧ (32767 : Int) ≤ 32767 := by decide
theorem witness_DecodeEncodeRoundTrip : (Instr.addN .save1 .zero (-128)).wellFormed = true ∧ (Instr.jump .save1 32767).wellFormed = true
    ∧ decode ⟨0x0F, 0x05, 0xAA, 0xBB⟩ = .ok (.endRun .call1) ∧ encode (.addN .save1 .zero 127) = encode (.addN .save1 .zero 127) := by decide
theorem witness_DecodeRejectsExactlyIllegalBytes : illegalBytes ⟨0x11, 0, 0, 0⟩ ∧ illegalBytes ⟨0x0E, 0, 0x0B, 0⟩ ∧ illegalBytes ⟨3, 0, 0, 0x0B⟩
    ∧ ¬ illegalBytes ⟨0x10, 0xFF, 0xFF, 0xFF⟩ ∧ ¬ illegalBytes ⟨3, 0x0A, 0x0A, 0x0A⟩ := by unfold illegalBytes; decide

/-- A machine whose next bytes are no instruction. -/
def illegalNext : State := withCode [0x11, 0, 0, 0] .endInstr []

/-- A machine whose next instruction is a `SysCall` to a handler that never returns. -/
def hangingNext : State := withHandler (withCode [0x10, 0, 0, 0] .endInstr []) .never

theorem witness_IllegalBytesRaiseIllegalInstruction : illegalNext.run = .running
    ∧ illegalNext.fetchInstruction illegalNext.pc = .ok ⟨0x11, 0, 0, 0⟩ ∧ illegalBytes ⟨0x11, 0, 0, 0⟩ := by unfold illegalBytes; decide
theorem witness_StepRunsTheDecodedInstruction : twoInstr.run = .running ∧ twoInstr.fetchInstruction twoInstr.pc = .ok ⟨0x0F, 5, 0, 0⟩
    ∧ decode ⟨0x0F, 5, 0, 0⟩ = .ok (.endRun .call1) := by decide

/-- A machine at the end of its 6 instruction bytes: two trailing bytes are no instruction. -/
def atEnd (mode : TermMode) : State := withCode [4, 5, 0, 3, 0, 0] mode [(.programCounter, 4), (.call1, 3)]

theorem witness_FetchPastTheEndFaults : (atEnd .endInstr).run = .running ∧ validPC (atEnd .endInstr).pc = true
    ∧ (atEnd .endInstr).fetchInstruction (atEnd .endInstr).pc = .error (.memoryOutOfRange 4 6)
    ∧ (atEnd .endInstr).pc.toInt + 4 > (atEnd .endInstr).instrStore.size ∧ (atEnd .endInstr).termMode = .endInstr
    ∧ (atEnd .runOffEnd).pc.toInt + 4 > (atEnd .runOffEnd).instrStore.size ∧ (atEnd .runOffEnd).termMode = .runOffEnd := by decide
theorem witness_RunOffEndHaltsWithResultRegister : (atEnd .runOffEnd).run = .running ∧ (atEnd .endInstr).run = .running
    ∧ (atEnd .runOffEnd).hasNextInstruction (atEnd .runOffEnd).pc = false ∧ (atEnd .endInstr).hasNextInstruction (atEnd .endInstr).pc = false := by decide
theorem witness_NoStepAppliesAfterTermination : ((small.halt 3).run ≠ .running ∧ (small.raise .arithmeticFault).run ≠ .running)
    ∧ ((small.halt 3).run = .halted 3 ∧ (small.raise .arithmeticFault).run = .faulted .arithmeticFault)
    ∧ (twoInstr.run = .running ∧ step twoInstr = .next (twoInstr.halt 0) ∧ twoInstr.Interprets (.result 0) (twoInstr.halt 0))
    ∧ illegalNext.Interprets (.fault (.illegalInstruction ⟨0x11, 0, 0, 0⟩ 0)) (illegalNext.raise (.illegalInstruction ⟨0x11, 0, 0, 0⟩ 0))
    ∧ (hangingNext.run = .running ∧ hangingNext.fetchInstruction hangingNext.pc = .ok ⟨0x10, 0, 0, 0⟩
      ∧ decode ⟨0x10, 0, 0, 0⟩ = .ok .sysCall ∧ hangingNext.handlerRuns = .never :: []) :=
  ⟨by decide, by decide, ⟨by decide, rfl, ⟨1, rfl⟩⟩, ⟨1, rfl⟩, by decide⟩
theorem witness_RunningStepCompletes : State.reset.run = .running := by decide
theorem witness_DefaultAdvanceAddsFourOrFaults : (validPC lastPC.pc = true ∧ lastPC.pc ≠ 0x7FFFFFFC) ∧ (validPC topPC.pc = true ∧ topPC.pc = 0x7FFFFFFC) := by decide

/-- The common hypotheses of the completion statements of files 41, 42 and 44. -/
theorem witness_AddICompletes : RegName.call1 ≠ .zero ∧ RegName.call1 ≠ .programCounter ∧ validPC (lastPC.pc + 4) = true := by decide
theorem witness_SubICompletes : RegName.save1 ≠ .zero ∧ RegName.save1 ≠ .programCounter ∧ validPC (small.pc + 4) = true := by decide
theorem witness_MulICompletes : RegName.stackPointer ≠ .zero ∧ RegName.stackPointer ≠ .programCounter ∧ validPC (lastPC.pc + 4) = true := by decide
theorem witness_DivICompletes : RegName.call1 ≠ .zero ∧ RegName.call1 ≠ .programCounter ∧ validPC (lastPC.pc + 4) = true ∧ lastPC.readReg .save2 ≠ 0 := by decide
theorem witness_AddNCompletes : imm8InRange (-128) = true ∧ RegName.call1 ≠ .zero ∧ RegName.call1 ≠ .programCounter ∧ validPC (lastPC.pc + 4) = true := by decide
theorem witness_SubNCompletes : imm8InRange 127 = true ∧ RegName.call1 ≠ .zero ∧ RegName.call1 ≠ .programCounter ∧ validPC (lastPC.pc + 4) = true := by decide
theorem witness_MulNCompletes : imm8InRange (-128) = true ∧ RegName.call1 ≠ .zero ∧ RegName.call1 ≠ .programCounter ∧ validPC (small.pc + 4) = true := by decide
theorem witness_DivNCompletes : imm8InRange (-128) = true ∧ (-128 : Int) ≠ 0 ∧ RegName.call1 ≠ .zero ∧ RegName.call1 ≠ .programCounter
    ∧ validPC (lastPC.pc + 4) = true := by decide
theorem witness_SetILowCompletes : imm16InRange 32767 = true ∧ RegName.call1 ≠ .zero ∧ RegName.call1 ≠ .programCounter ∧ validPC (lastPC.pc + 4) = true := by decide
theorem witness_SetIHighCompletes : imm16InRange (-32768) = true ∧ RegName.call1 ≠ .zero ∧ RegName.call1 ≠ .programCounter ∧ validPC (lastPC.pc + 4) = true := by decide
theorem witness_DivideByZeroRaisesArithmeticFault : lastPC.readReg .call1 = 0 ∧ small.readReg .zero = 0 := by decide
theorem witness_LoadICompletes : (28 : Word) = lastPC.effectiveAddress .save1 2 ∧ imm8InRange 2 = true ∧ 0 ≤ (28 : Word).toInt
    ∧ (28 : Word).toInt + 4 ≤ lastPC.mem.size ∧ (28 : Word).toNat % 4 = 0 ∧ RegName.call1 ≠ .zero ∧ RegName.call1 ≠ .programCounter
    ∧ validPC (lastPC.pc + 4) = true := by decide
theorem witness_StoreICompletes : (0 : Word) = lastPC.effectiveAddress .save1 (-5) ∧ imm8InRange (-5) = true ∧ lastPC.mem.wf = true ∧ 0 ≤ (0 : Word).toInt
    ∧ (0 : Word).toInt + 4 ≤ lastPC.mem.size ∧ (0 : Word).toNat % 4 = 0 ∧ validPC (lastPC.pc + 4) = true := by decide
theorem witness_LoadStoreFaultsWriteNothing : ((-4 : Word) = small.effectiveAddress .zero (-1) ∧ (-4 : Word).toInt < 0)
    ∧ ((32 : Word) = small.effectiveAddress .zero 8 ∧ (32 : Word).toInt + 4 > small.mem.size)
    ∧ ((27 : Word) = lastPC.effectiveAddress .save2 6 ∧ 0 ≤ (27 : Word).toInt ∧ (27 : Word).toInt + 4 ≤ lastPC.mem.size ∧ (27 : Word).toNat % 4 ≠ 0) := by decide

/-- The state after `StoreI Save2, Save1, 2` in `lastPC`'s memory, from pc = 0. -/
def beforeStore : State := withRegs [(.save1, 20), (.save2, 3)]
def afterStore : State := (beforeStore.setReg .programCounter 4 : State)

theorem witness_LoadAfterStoreGivesTheWord : beforeStore.mem.wf = true ∧ RegName.save1 ≠ .programCounter ∧ RegName.call1 ≠ .zero
    ∧ RegName.call1 ≠ .programCounter ∧ beforeStore.run = .running
    ∧ exec (.storeI .save2 .save1 2) beforeStore = .next { afterStore with mem := (beforeStore.mem.writeByte 28 3) }
    ∧ afterStore.run = .running ∧ validPC (afterStore.pc + 4) = true := ⟨by decide, by decide, by decide, by decide, by decide, by rfl, by decide, by decide⟩
/-- Both topologies: `StoreI Zero, Zero, 1` replaces the word at 4. -/
theorem witness_StoresReachFetchInUnifiedOnly : twoWords.mem.wf = true ∧ twoWords.run = .running ∧ small.mem.wf = true ∧ small.run = .running
    ∧ exec (.storeI .zero .zero 1) twoWords = .next { twoWords.setReg .programCounter 4 with mem := ⟨8, [(0, 4), (1, 5), (3, 3)]⟩ }
    ∧ exec (.storeI .zero .zero 1) small = .next (small.setReg .programCounter 4)
    ∧ twoWords.topology = .unified ∧ small.topology = .segregated := ⟨by decide, by decide, by decide, by decide, by rfl, by rfl, by decide, by decide⟩
theorem witness_ClearThenSetBothHalvesLoadsConstant : RegName.save1 ≠ .zero ∧ RegName.save1 ≠ .programCounter
    ∧ validPC (withRegs [(.programCounter, 0x7FFFFFF0)]).pc = true ∧ validPC ((withRegs [(.programCounter, 0x7FFFFFF0)]).pc + 12) = true := by decide
theorem witness_JumpSetsPcOrFaults : ((0x7FFFFFFC : Word) = topPC.jumpTarget .programCounter 0 ∧ 0 ≤ (0x7FFFFFFC : Word).toInt ∧ (0x7FFFFFFC : Word).toNat % 4 = 0)
    ∧ ((0x80000000 : Word) = topPC.jumpTarget .programCounter 1 ∧ (0x80000000 : Word).toInt < 0)
    ∧ ((3 : Word) = topPC.jumpTarget .save2 0 ∧ (3 : Word).toNat % 4 ≠ 0) := by decide
theorem witness_JumpZeroTakenIffZero : (small.readReg .call1 = 0 ∧ (0 : Word) = small.jumpTarget .zero 0 ∧ 0 ≤ (0 : Word).toInt ∧ (0 : Word).toNat % 4 = 0)
    ∧ (small.readReg .call1 = 0 ∧ (-4 : Word) = small.jumpTarget .zero (-1) ∧ (-4 : Word).toInt < 0)
    ∧ (lastPC.readReg .save2 ≠ 0 ∧ validPC (lastPC.pc + 4) = true) ∧ (topPC.readReg .save2 ≠ 0 ∧ topPC.pc = 0x7FFFFFFC) := by decide
theorem witness_JumpGTTakenIffPositive : (0 < (topPC.readReg .save2).toInt ∧ (16 : Word) = topPC.jumpTarget .save3 0 ∧ 0 ≤ (16 : Word).toInt ∧ (16 : Word).toNat % 4 = 0)
    ∧ (0 < (topPC.readReg .save2).toInt ∧ (3 : Word) = topPC.jumpTarget .save2 0 ∧ (3 : Word).toNat % 4 ≠ 0)
    ∧ ((lastPC.readReg .call1).toInt ≤ 0 ∧ validPC (lastPC.pc + 4) = true) ∧ ((topPC.readReg .call1).toInt ≤ 0 ∧ topPC.pc = 0x7FFFFFFC) := by decide

/-- `SysCall` with a handler that writes `Save1` and then `writeWord(2, 9)`, which faults. -/
def faultingHandler : State := withHandler small (.finishes ⟨[.writeReg .save1 5] ++ .writeWord 2 9 :: [.writeReg .save1 6], .returns⟩)

/- The witnesses below take the outcome fixed in advance; the free handler's case of `NextHandlerRun` is met by every state whose queue is
empty (`witness_HandlerWritesOnlyWhatItAccesses`), while what the opaque handler then does can be shown by no witness. -/

theorem witness_SysCallReturnThenAdvances :
    ((fixture []).NextHandlerRun ⟨[], .returns⟩ [] ∧ ((fixture []).nextInvocation []).handlerOps [] = ((fixture []).nextInvocation [], none)
      ∧ validPC (((fixture []).nextInvocation []).pc + 4) = true)
    ∧ ((fixture [.writeReg .programCounter 0x7FFFFFFC]).NextHandlerRun ⟨[.writeReg .programCounter 0x7FFFFFFC], .returns⟩ []
      ∧ ((fixture [.writeReg .programCounter 0x7FFFFFFC]).nextInvocation []).handlerOps [.writeReg .programCounter 0x7FFFFFFC]
        = (((fixture []).nextInvocation []).setReg .programCounter 0x7FFFFFFC, none)) :=
  ⟨⟨.inl rfl, by decide, by decide⟩, .inl rfl, by decide⟩
theorem witness_SysCallIdleHandlerOnlyAdvances : (fixture []).NextHandlerRun ⟨[], .returns⟩ [] ∧ validPC ((fixture []).pc + 4) = true :=
  ⟨.inl rfl, by decide⟩
theorem witness_HandlerWritesOnlyWhatItAccesses :
    (faultingHandler.NextHandlerRun ⟨[.writeReg .save1 5] ++ .writeWord 2 9 :: [.writeReg .save1 6], .returns⟩ []
      ∧ ∃ u, exec .sysCall faultingHandler = .next u)
    ∧ (State.reset.NextHandlerRun State.reset.freeHandlerRun [] ∧ ∃ u, exec .sysCall State.reset = .next u) :=
  ⟨⟨.inl rfl, _, rfl⟩, .inr ⟨rfl, rfl, rfl⟩, _, rfl⟩
theorem witness_UnknownSysCallFaultsWithCall1 :
    (withHandler small (.finishes ⟨[], .unknownSysCall⟩)).NextHandlerRun ⟨[], .unknownSysCall⟩ []
    ∧ ((withHandler small (.finishes ⟨[], .unknownSysCall⟩)).nextInvocation []).handlerOps [] = (small.nextInvocation [], none) :=
  ⟨.inl rfl, by decide⟩
theorem witness_HandlerFaultKeepsEarlierWrites :
    faultingHandler.NextHandlerRun ⟨[.writeReg .save1 5] ++ .writeWord 2 9 :: [.writeReg .save1 6], .returns⟩ []
    ∧ (faultingHandler.nextInvocation []).handlerOps [.writeReg .save1 5] = ((small.nextInvocation []).setReg .save1 5, none)
    ∧ ((small.nextInvocation []).setReg .save1 5).handlerOp (.writeWord 2 9) = .error (.memoryAlignment 2) :=
  ⟨.inl rfl, by decide, by decide⟩
theorem witness_SysCallNeverReturningHasNoNextState : (withHandler small .never).handlerRuns = .never :: [] := by decide
theorem witness_SysCallKeepsThePolicies : (∃ u, exec .sysCall (fixture []) = .next u) ∧ (∃ u, exec .sysCall State.reset = .next u)
    ∧ validPC (fixture []).pc = true ∧ (fixture []).mem.wf = true := ⟨⟨_, rfl⟩, ⟨_, rfl⟩, by decide, by decide⟩
theorem witness_ConsoleHandlerReportsStatusInCall4 :
    ((console [(.call1, 1), (.call2, 127)]).NextHandlerRun (consoleRun (console [(.call1, 1), (.call2, 127)]).readReg) []
      ∧ validPC ((console [(.call1, 1), (.call2, 127)]).pc + 4) = true ∧ (console [(.call1, 1), (.call2, 127)]).readReg .call1 = 1)
    ∧ (0 ≤ (127 : Word).toInt ∧ (127 : Word).toInt ≤ 127) ∧ (127 < (128 : Word).toInt ∧ (0xFFFFFFFF : Word).toInt < 0)
    ∧ ((console [(.call1, 2)]).NextHandlerRun (consoleRun (console [(.call1, 2)]).readReg) []
      ∧ validPC ((console [(.call1, 2)]).pc + 4) = true ∧ (console [(.call1, 2)]).readReg .call1 ≠ 1) :=
  ⟨⟨.inl rfl, by decide, by decide⟩, by decide, by decide, .inl rfl, by decide, by decide⟩
theorem witness_ZeroDestinationRaisesIllegalOperation : (Instr.loadI .zero .zero 4).wellFormed = true ∧ destination (.loadI .zero .zero 4) = some .zero
    ∧ resultValue small (.loadI .zero .zero 4) = some 0x12345678 ∧ resultValue lastPC (.divI .zero .save2 .save1) = some 6 := by decide
theorem witness_PcDestinationWritesThenAdvances : (Instr.addN .programCounter .zero (-4)).wellFormed = true
    ∧ destination (.addN .programCounter .zero (-4)) = some .programCounter
    ∧ (resultValue small (.addN .programCounter .zero (-4)) = some 0xFFFFFFFC ∧ validPC 0xFFFFFFFC = false)
    ∧ (resultValue lastPC (.addN .programCounter .programCounter 0) = some 0x7FFFFFF8 ∧ validPC 0x7FFFFFF8 = true ∧ (0x7FFFFFF8 : Word) ≠ 0x7FFFFFFC)
    ∧ resultValue lastPC (.addN .programCounter .programCounter 4) = some 0x7FFFFFFC := by decide
theorem witness_ResultsAgreeWithMachineArithmetic : (Instr.divN .save1 .save1 (-128)).wellFormed = true ∧ destination (.divN .save1 .save1 (-128)) = some .save1
    ∧ RegName.save1 ≠ .zero ∧ RegName.save1 ≠ .programCounter
    ∧ resultValue (withRegs [(.save1, 0x80000000)]) (.divN .save1 .save1 (-1)) = some 0x80000000
    ∧ resultValue lastPC (.divN .save1 .save1 (-128)) = some 0 ∧ validPC (lastPC.pc + 4) = true := by decide
theorem witness_AdvanceFaultKeepsTheWrite : (Instr.addI .save1 .save1 .save2).wellFormed = true ∧ destination (.addI .save1 .save1 .save2) = some .save1
    ∧ RegName.save1 ≠ .zero ∧ RegName.save1 ≠ .programCounter ∧ resultValue topPC (.addI .save1 .save1 .save2) = some 23 ∧ topPC.pc = 0x7FFFFFFC
    ∧ (28 : Word) = topPC.effectiveAddress .save1 2 ∧ topPC.mem.wf = true ∧ 0 ≤ (28 : Word).toInt ∧ (28 : Word).toInt + 4 ≤ topPC.mem.size
    ∧ (28 : Word).toNat % 4 = 0 := by decide
theorem witness_OnlyDestinationAndPcChange : Instr.storeI .save2 .save1 2 ≠ .sysCall ∧ (∃ t, exec (.storeI .save2 .save1 2) lastPC = .next t)
    ∧ RegName.save1 ≠ .programCounter ∧ destination (.addI .call1 .save1 .save2) ≠ some .save1 := ⟨by decide, ⟨_, rfl⟩, by decide, by decide⟩
theorem witness_OnlyStoreIWritesMemory : Instr.storeI .save2 .save1 2 ≠ .sysCall 
    ∧ (∃ t, exec (.storeI .save2 .save1 2) lastPC = .next t) ∧ 27 < (lastPC.effectiveAddress .save1 2).toNat
    ∧ (lastPC.effectiveAddress .save1 2).toNat + 3 < 32 := ⟨by decide, ⟨_, rfl⟩, by decide, by decide⟩
/-- Both cases: illegal bytes, and an advance that faults (V-STEP: `LoadI PC, Zero, 0` with 0x7FFFFFFC in memory). -/
theorem witness_FaultsArePrecise : validPC illegalNext.pc = true ∧ illegalNext.fetchInstruction illegalNext.pc = .ok ⟨0x11, 0, 0, 0⟩
    ∧ decode ⟨0x11, 0, 0, 0⟩ ≠ .ok .sysCall ∧ runOf (step illegalNext) = some (.faulted (.illegalInstruction ⟨0x11, 0, 0, 0⟩ 0))
    ∧ runOf (step { withCode [8, 9, 0, 0] .endInstr [] with mem := Memory.ofBytes [0xFC, 0xFF, 0xFF, 0x7F] }) = some (.faulted (.illegalPC 0x80000000)) := by decide
theorem witness_HaltedOnlyByEndOrRunOffEnd : runOf (step twoInstr) = some (.halted 0) ∧ runOf (step (atEnd .runOffEnd)) = some (.halted 3) := by decide
theorem witness_NoStepChangesTheParameters : ∃ t, step twoInstr = .next t := ⟨_, rfl⟩
theorem witness_InstructionArrayIsNoData : Instr.loadI .call1 .save1 (-1) ≠ .sysCall ∧ (∃ t, exec (.loadI .call1 .save1 (-1)) lastPC = .next t) := ⟨by decide, ⟨_, rfl⟩⟩
theorem witness_ConstructionGivesTheResetState : (∃ s, State.construct paramsAtReset = .ok s)
    ∧ ∃ s, State.construct { paramsAtReset with topology := .unified, imem := none, memSize := 2, memInit := some [1, 2] } = .ok s := ⟨⟨_, rfl⟩, ⟨_, rfl⟩⟩
theorem witness_EveryStepKeepsTheInvariant : (twoInstr.mem.wf = true ∧ twoInstr.imem.wf = true ∧ validPC twoInstr.pc = true
      ∧ (twoInstr.topology = .unified → twoInstr.imem = Memory.empty))
    ∧ ∃ t, step twoInstr = .next t := ⟨by decide, ⟨_, rfl⟩⟩

end Sys2Proof.Tests
end

/-! The register write policy (spec/10_state.md R24, R25). -/

namespace Sys2Proof.Machine

theorem validPC_eq_true_iff (v : Word) : validPC v = true ↔ 0 ≤ v.toInt ∧ v.toNat % 4 = 0 := by
  simp only [validPC, Bool.and_eq_true, decide_eq_true_eq]

theorem validPC_eq_false_iff (v : Word) : validPC v = false ↔ v.toInt < 0 ∨ v.toNat % 4 ≠ 0 := by
  rw [← Bool.not_eq_true, validPC_eq_true_iff, not_and_or, not_le]

theorem State.writeReg_zero (s : State) (v : Word) : s.writeReg .zero v = .error .illegalOperation := by
  simp [State.writeReg]

theorem State.writeReg_pc_of_invalid (s : State) (v : Word) (h : validPC v = false) :
    s.writeReg .programCounter v = .error (.illegalPC v) := by
  simp [State.writeReg, h]

theorem State.writeReg_of_allowed (s : State) {r : RegName} (v : Word) (h0 : r ≠ .zero)
    (hpc : r = .programCounter → validPC v = true) : s.writeReg r v = .ok (s.setReg r v) := by
  by_cases hr : r = .programCounter
  · subst hr
    exact s.writeReg_pc v (hpc rfl)
  · exact s.writeReg_of_plain v h0 hr

/-- Settles O1: each of the three answers of a register write has its equation, and the stored case is `State.setReg`, which
has the read-after-write law and its frame. -/
theorem registerWritePolicy : Obligations.RegisterWritePolicy := by
  intro s r v
  refine ⟨s.readReg_zero, ?zero, ?refused, ?stored⟩
  case zero =>
    rintro rfl
    exact s.writeReg_zero v
  case refused =>
    rintro rfl hv
    exact s.writeReg_pc_of_invalid v ((validPC_eq_false_iff v).mpr hv)
  case stored =>
    intro h0 hpc
    have hwrite : s.writeReg r v = .ok (s.setReg r v) :=
      s.writeReg_of_allowed v h0 fun hr => (validPC_eq_true_iff v).mpr (hpc hr)
    exact ⟨s.setReg r v, hwrite, s.readReg_setReg_same r v h0, s.sameBut_setReg r v [r] (List.mem_singleton_self r)⟩

end Sys2Proof.Machine

/-! The word read and the word write of the memory unit (spec/20_memory.md R54, R56, R57). -/

namespace Sys2Proof.Machine

/-! A word and its four bytes, the lowest address in bits 7:0 (D5). -/

/-- The four slices of a word put together from its bytes. -/
theorem extractLsb'_littleEndian (b0 b1 b2 b3 : Byte) {v : Word} (hv : v = b3 ++ b2 ++ b1 ++ b0) :
    v.extractLsb' 0 8 = b0 ∧ v.extractLsb' 8 8 = b1 ∧ v.extractLsb' 16 8 = b2 ∧ v.extractLsb' 24 8 = b3 := by
  have above0 (start : Nat) (h : 8 ≤ start) :
      v.extractLsb' start 8 = (b3 ++ b2 ++ b1).extractLsb' (start - 8) 8 := by
    rw [hv]
    exact BitVec.extractLsb'_append_eq_of_le h
  refine ⟨?_, ?_, ?_, ?_⟩
  · rw [hv]
    exact BitVec.extractLsb'_append_eq_right
  · rw [above0 8 (by omega)]
    exact BitVec.extractLsb'_append_eq_right
  · rw [above0 16 (by omega), BitVec.extractLsb'_append_eq_of_le (by omega)]
    exact BitVec.extractLsb'_append_eq_right
  · rw [above0 24 (by omega), BitVec.extractLsb'_append_eq_of_le (by omega)]
    exact BitVec.extractLsb'_append_eq_left

/-- A word is put together from its own four slices. -/
theorem littleEndian_extractLsb' (v : Word) :
    v.extractLsb' 24 8 ++ v.extractLsb' 16 8 ++ v.extractLsb' 8 8 ++ v.extractLsb' 0 8 = v := by
  have upper2 : v.extractLsb' 24 8 ++ v.extractLsb' 16 8 = v.extractLsb' 16 16 :=
    BitVec.extractLsb'_append_extractLsb'_eq_extractLsb' rfl
  have upper3 : v.extractLsb' 16 16 ++ v.extractLsb' 8 8 = v.extractLsb' 8 24 :=
    BitVec.extractLsb'_append_extractLsb'_eq_extractLsb' rfl
  have whole : v.extractLsb' 8 24 ++ v.extractLsb' 0 8 = v.extractLsb' 0 32 :=
    BitVec.extractLsb'_append_extractLsb'_eq_extractLsb' rfl
  rw [upper2, upper3, whole]
  exact BitVec.extractLsb'_eq_self

/-! The two faults of the check, and what the accesses do with its answer (R54). -/

theorem Memory.check_of_outOfBounds {m : Memory} {a : Word} (h : a.toInt < 0 ∨ a.toInt + 4 > m.size) :
    m.check a = .error (.memoryOutOfRange a m.size) := by
  rcases m.check_cases a with ⟨⟨h0, h4, _⟩, _⟩ | ⟨_, hc⟩ | ⟨h0, h4, _, _⟩
  · omega
  · exact hc
  · omega

theorem Memory.check_of_misaligned {m : Memory} {a : Word} (h0 : 0 ≤ a.toInt) (h4 : a.toInt + 4 ≤ m.size)
    (hal : a.toNat % 4 ≠ 0) : m.check a = .error (.memoryAlignment a) := by
  rcases m.check_cases a with ⟨⟨_, _, h⟩, _⟩ | ⟨h, _⟩ | ⟨_, _, _, hc⟩
  · exact absurd h hal
  · omega
  · exact hc

theorem State.readWord_of_check_error {s : State} {a : Word} {k : FaultKind} (h : s.mem.check a = .error k) :
    s.readWord a = .error k := by
  simp only [State.readWord, Memory.readWord, h, Except.map]

theorem State.writeWord_of_check_error {s : State} {a : Word} {k : FaultKind} (v : Word)
    (h : s.mem.check a = .error k) : s.writeWord a v = .error k := by
  simp only [State.writeWord, Memory.writeWord, h, Except.map]

/-! The accesses at an address that passes the check. -/

theorem Memory.readWord_of_accessible {m : Memory} {a : Word} (h : m.accessible a) :
    m.readWord a = .ok (m.readByte (a.toNat + 3) ++ m.readByte (a.toNat + 2) ++ m.readByte (a.toNat + 1)
      ++ m.readByte a.toNat) := by
  simp only [Memory.readWord, m.check_of_accessible a h, Except.map]

theorem Memory.writeWord_succeeds {m : Memory} {a : Word} (v : Word) (h : m.accessible a) :
    ∃ n, m.writeWord a v = .ok n := by
  simp only [Memory.writeWord, m.check_of_accessible a h, Except.map]
  exact ⟨_, rfl⟩

theorem State.writeWord_of_mem {s : State} {a v : Word} {m : Memory} (h : s.mem.writeWord a v = .ok m) :
    s.writeWord a v = .ok { s with mem := m } := by
  simp only [State.writeWord, h, Except.map]

/-- The four bytes of a word write hold the word, little-endian (R57). -/
theorem Memory.readByte_writeWord_bytes {m n : Memory} {a v : Word} (hw : m.wf = true) (h : m.writeWord a v = .ok n) :
    n.readByte a.toNat = v.extractLsb' 0 8 ∧ n.readByte (a.toNat + 1) = v.extractLsb' 8 8
      ∧ n.readByte (a.toNat + 2) = v.extractLsb' 16 8 ∧ n.readByte (a.toNat + 3) = v.extractLsb' 24 8 := by
  have hbyte := Memory.readByte_writeWord hw h
  refine ⟨?_, ?_, ?_, ?_⟩ <;> simp [hbyte]

/-- The word read right after a word write is the word written (R57). -/
theorem Memory.readWord_writeWord_same {m n : Memory} {a v : Word} (hw : m.wf = true) (h : m.writeWord a v = .ok n) :
    n.readWord a = .ok v := by
  obtain ⟨hacc, _⟩ := Memory.writeWord_ok h
  have hn : n.accessible a := by
    unfold Memory.accessible
    rw [Memory.size_writeWord h]
    exact hacc
  obtain ⟨h0, h1, h2, h3⟩ := Memory.readByte_writeWord_bytes hw h
  rw [Memory.readWord_of_accessible hn, h0, h1, h2, h3, littleEndian_extractLsb']

/-- Settles O2: the answer of the check decides between its two faults and the word of the four bytes. -/
theorem readWordChecksThenReads : Obligations.ReadWordChecksThenReads := by
  intro s a
  refine ⟨?outOfBounds, ?misaligned, ?read⟩
  case outOfBounds =>
    intro h
    exact State.readWord_of_check_error (Memory.check_of_outOfBounds h)
  case misaligned =>
    intro h0 h4 hal
    exact State.readWord_of_check_error (Memory.check_of_misaligned h0 h4 hal)
  case read =>
    intro h0 h4 hal
    exact ⟨_, Memory.readWord_of_accessible ⟨h0, h4, hal⟩, extractLsb'_littleEndian _ _ _ _ rfl⟩

/-- Settles O3: the check's two faults as for a read; a write that passes it is `Memory.writeWord`, which has its
read-after-write law and its frame, and the state differs in the array only. -/
theorem writeWordChecksThenWrites : Obligations.WriteWordChecksThenWrites := by
  intro s a v hw
  refine ⟨?outOfBounds, ?misaligned, ?written⟩
  case outOfBounds =>
    intro h
    exact State.writeWord_of_check_error v (Memory.check_of_outOfBounds h)
  case misaligned =>
    intro h0 h4 hal
    exact State.writeWord_of_check_error v (Memory.check_of_misaligned h0 h4 hal)
  case written =>
    intro h0 h4 hal
    obtain ⟨m, hm⟩ := Memory.writeWord_succeeds v (⟨h0, h4, hal⟩ : s.mem.accessible a)
    obtain ⟨hb0, hb1, hb2, hb3⟩ := Memory.readByte_writeWord_bytes hw hm
    exact ⟨{ s with mem := m }, State.writeWord_of_mem hm, Memory.readWord_writeWord_same hw hm, hb0, hb1, hb2, hb3,
      Memory.readByte_writeWord_ne hm, fun _ _ => rfl, ⟨rfl, Memory.size_writeWord hm, rfl, rfl, rfl⟩, ⟨rfl, rfl⟩, rfl⟩

end Sys2Proof.Machine

/-! Illegal bytes and ignored bytes (spec/30_encoding.md R106 to R109). -/

namespace Sys2Proof

/-! What a successful decode says about the bytes: every register field holds at most 10 (R94, R108), and the opcode byte is the
number of the opcode (R107). -/

theorem ok_of_exceptBind_eq_ok {ε α β : Type} {x : Except ε α} {f : α → Except ε β} {b : β} (h : x.bind f = .ok b) :
    ∃ a, x = .ok a ∧ f a = .ok b := by
  cases x with
  | error e => cases h
  | ok a => exact ⟨a, rfl, h⟩

theorem ok_of_exceptMap_eq_ok {ε α β : Type} {x : Except ε α} {f : α → β} {b : β} (h : x.map f = .ok b) :
    ∃ a, x = .ok a := by
  cases x with
  | error e => cases h
  | ok a => exact ⟨a, rfl⟩

theorem toNat_le_of_decodeRegister_ok {b : Byte} {r : RegName} (h : decodeRegister b = .ok r) : b.toNat ≤ 10 := by
  by_contra hb
  have hnone : registerOfByte b = none := (registerOfByte_eq_none_iff b).mpr (by omega)
  rw [decodeRegister, hnone] at h
  cases h

theorem toNat_le_of_map_decodeRegister_ok {α : Type} {b : Byte} {f : RegName → α} {x : α}
    (h : (decodeRegister b).map f = .ok x) : b.toNat ≤ 10 := by
  obtain ⟨r, hr⟩ := ok_of_exceptMap_eq_ok h
  exact toNat_le_of_decodeRegister_ok hr

/-- The opcode table has one byte for each opcode (R100). -/
theorem eq_opcodeByte_of_opcodeOfByte {b : Byte} {op : Opcode} (h : opcodeOfByte b = some op) : b = opcodeByte op := by
  obtain ⟨entry, hfind, rfl⟩ := Option.map_eq_some_iff.mp h
  have hbyte : entry.2 = b := by simpa using List.find?_some hfind
  have htable : ∀ e ∈ opcodeNumbering, e.2 = opcodeByte e.1 := by decide
  exact hbyte.symm.trans (htable entry (List.mem_of_find?_eq_some hfind))

theorem decode_ok {raw : RawInstr} {i : Instr} (h : decode raw = .ok i) :
    ∃ op, raw.b0 = opcodeByte op ∧ decodeFields op raw = .ok i := by
  unfold decode at h
  split at h
  · cases h
  · next op hop => exact ⟨op, eq_opcodeByte_of_opcodeOfByte hop, h⟩

theorem registerBytes_of_decodeRRR_ok {make : RegName → RegName → RegName → Instr} {raw : RawInstr} {i : Instr}
    (h : decodeRRR make raw = .ok i) : raw.b1.toNat ≤ 10 ∧ raw.b2.toNat ≤ 10 ∧ raw.b3.toNat ≤ 10 := by
  obtain ⟨ra, h1, h⟩ := ok_of_exceptBind_eq_ok h
  obtain ⟨rb, h2, h⟩ := ok_of_exceptBind_eq_ok h
  exact ⟨toNat_le_of_decodeRegister_ok h1, toNat_le_of_decodeRegister_ok h2, toNat_le_of_map_decodeRegister_ok h⟩

theorem registerBytes_of_decodeRRI_ok {make : RegName → RegName → Int → Instr} {raw : RawInstr} {i : Instr}
    (h : decodeRRI make raw = .ok i) : raw.b1.toNat ≤ 10 ∧ raw.b2.toNat ≤ 10 := by
  obtain ⟨ra, h1, h⟩ := ok_of_exceptBind_eq_ok h
  exact ⟨toNat_le_of_decodeRegister_ok h1, toNat_le_of_map_decodeRegister_ok h⟩

end Sys2Proof

namespace Sys2Proof.Machine

/-- Bytes that decode are legal: for each format of R100, its register bytes are checked and the opcode number shows that the
format has no other register position. -/
theorem not_illegalBytes_of_decode_ok {raw : RawInstr} {i : Instr} (h : decode raw = .ok i) : ¬ illegalBytes raw := by
  obtain ⟨op, hop, hfields⟩ := decode_ok h
  unfold illegalBytes
  cases op with
  | addI | subI | mulI | divI =>
    obtain ⟨h1, h2, h3⟩ := registerBytes_of_decodeRRR_ok hfields
    have h0 : raw.b0.toNat ≤ 0x03 := by rw [hop]; decide
    omega
  | addN | subN | mulN | divN | loadI | storeI | jumpZero | jumpGT =>
    obtain ⟨h1, h2⟩ := registerBytes_of_decodeRRI_ok hfields
    have h0 : 0x03 < raw.b0.toNat ∧ raw.b0.toNat ≤ 0x10 := by rw [hop]; decide
    omega
  | setILow | setIHigh | jump =>
    have h1 := toNat_le_of_map_decodeRegister_ok hfields
    have h0 : 0x09 < raw.b0.toNat ∧ raw.b0.toNat < 0x0D := by rw [hop]; decide
    omega
  | endRun =>
    have h1 := toNat_le_of_map_decodeRegister_ok hfields
    have h0 : raw.b0.toNat = 0x0F := by rw [hop]; decide
    omega
  | sysCall =>
    have h0 : raw.b0.toNat = 0x10 := by rw [hop]; decide
    omega

theorem decode_error_of_illegalBytes {raw : RawInstr} (h : illegalBytes raw) : ∃ e, decode raw = .error e := by
  cases hd : decode raw with
  | error e => exact ⟨e, rfl⟩
  | ok i => exact absurd h (not_illegalBytes_of_decode_ok hd)

/-! The step on bytes that were fetched (spec/40_interpreter_cycle.md R130). -/

/-- Where a fetch succeeds there is a next instruction (R58, R137). -/
theorem State.hasNextInstruction_of_fetch {s : State} {a : Word} {raw : RawInstr} (h : s.fetchInstruction a = .ok raw) :
    s.hasNextInstruction a = true := by
  obtain ⟨_, hcheck⟩ := ok_of_exceptMap_eq_ok h
  obtain ⟨h0, h4, _⟩ := Memory.accessible_of_check hcheck
  simp [State.hasNextInstruction, Memory.hasNext, h0, h4]

/-- Stage 0 lets a machine whose fetch succeeds pass, in either termination mode (R130). -/
theorem State.ranOffEnd_of_fetch {s : State} {raw : RawInstr} (h : s.fetchInstruction s.pc = .ok raw) :
    s.ranOffEnd = false := by
  unfold State.ranOffEnd
  cases s.termMode with
  | endInstr => rfl
  | runOffEnd => simp [State.hasNextInstruction_of_fetch h]

theorem step_of_fetch {s : State} {raw : RawInstr} (hrun : s.run = .running) (hfetch : s.fetchInstruction s.pc = .ok raw) :
    step s = s.runRaw raw := by
  simp [step, hrun, State.runStep, State.ranOffEnd_of_fetch hfetch, State.runStages, hfetch]

theorem State.runRaw_of_decode_error {raw : RawInstr} {e : DecodeError} (s : State) (h : decode raw = .error e) :
    s.runRaw raw = .next (s.raise (.illegalInstruction raw s.pc)) := by
  simp [State.runRaw, h]

/-- Settles O9: the step runs the bytes it fetched, the decoder rejects illegal bytes, and its rejection is raised with the bytes
and `pc`. -/
theorem illegalBytesRaiseIllegalInstruction : Obligations.IllegalBytesRaiseIllegalInstruction := by
  intro s raw hrun hfetch hillegal
  obtain ⟨e, hdecode⟩ := decode_error_of_illegalBytes hillegal
  rw [step_of_fetch hrun hfetch]
  exact s.runRaw_of_decode_error hdecode

end Sys2Proof.Machine

namespace Sys2Proof

/-! The bytes that hold no operand (R109). -/

theorem decode_endRun (b1 b2 b3 : Byte) : decode ⟨0x0F, b1, b2, b3⟩ = (decodeRegister b1).map .endRun := rfl

theorem decode_sysCall (b1 b2 b3 : Byte) : decode ⟨0x10, b1, b2, b3⟩ = .ok .sysCall := rfl

/-- Settles O10: the decoding of `End` is a function of `b1` alone, that of `SysCall` is constant, and the clauses about the
encoder are its own equations. -/
theorem ignoredBytesHaveNoEffect : Obligations.IgnoredBytesHaveNoEffect := by
  refine ⟨?decodeEnd, decode_sysCall, fun _ => ⟨rfl, rfl⟩, rfl⟩
  case decodeEnd =>
    intro b1 x2 x3 y2 y3
    rw [decode_endRun, decode_endRun]

end Sys2Proof

/-! The default advance (spec/40_interpreter_cycle.md R134). -/

namespace Sys2Proof.Machine

theorem validPC_iff_toNat (v : Word) : validPC v = true ↔ v.toNat < 2 ^ 31 ∧ v.toNat % 4 = 0 := by
  have hsign : 0 ≤ v.toInt ↔ v.toNat < 2 ^ 31 := by rw [BitVec.toInt_pos_iff]; omega
  rw [validPC_eq_true_iff, hsign]

/-- The highest valid `pc` is 0x7FFFFFFC: from any other the advance's target is again below 2^31 and aligned, and from there
the sum wraps to a negative value (R134). -/
theorem validPC_add_four_iff {v : Word} (h : validPC v = true) : validPC (v + 4) = true ↔ v ≠ 0x7FFFFFFC := by
  rw [validPC_iff_toNat] at h ⊢
  obtain ⟨hbelow, haligned⟩ := h
  have hsum : (v + 4).toNat = v.toNat + 4 := by bv_omega
  have htop : v = 0x7FFFFFFC ↔ v.toNat = 0x7FFFFFFC := BitVec.toNat_inj.symm
  rw [Ne, htop, hsum]
  omega

theorem State.advance_of_valid {s : State} (h : validPC (s.pc + 4) = true) :
    s.advance = s.setReg .programCounter (s.pc + 4) := by
  rcases s.advance_cases with ⟨_, hadv⟩ | ⟨hinvalid, _⟩
  · exact hadv
  · rw [h] at hinvalid; cases hinvalid

theorem State.advance_of_invalid {s : State} (h : validPC (s.pc + 4) = false) :
    s.advance = s.raise (.illegalPC (s.pc + 4)) := by
  rcases s.advance_cases with ⟨hvalid, _⟩ | ⟨_, hadv⟩
  · rw [h] at hvalid; cases hvalid
  · exact hadv

/-- Settles O17: whether the advance writes `pc` or raises turns on whether `pc + 4` is a valid `pc`, which from a valid `pc` fails
at 0x7FFFFFFC only. -/
theorem defaultAdvanceAddsFourOrFaults : Obligations.DefaultAdvanceAddsFourOrFaults := by
  intro s hpc
  refine ⟨?adds, ?faults⟩
  case adds =>
    intro hne
    rw [State.advance_of_valid ((validPC_add_four_iff hpc).mpr hne)]
    exact ⟨s.pc_setReg_pc _, s.sameBut_setReg _ _ _ (List.mem_singleton_self _)⟩
  case faults =>
    intro htop
    have hinvalid : validPC (s.pc + 4) = false := by rw [htop]; decide
    rw [State.advance_of_invalid hinvalid, htop]
    rfl

end Sys2Proof.Machine

/-! The codec read both ways, format by format (spec/30_encoding.md R93 to R96, R105, R106, R110). -/

namespace Sys2Proof

/-- The register table has one byte for each register (R94). -/
theorem eq_registerByte_of_registerOfByte {b : Byte} {r : RegName} (h : registerOfByte b = some r) : b = registerByte r := by
  obtain ⟨entry, hfind, rfl⟩ := Option.map_eq_some_iff.mp h
  have hbyte : entry.2 = b := by simpa using List.find?_some hfind
  have htable : ∀ e ∈ registerNumbering, e.2 = registerByte e.1 := by decide
  exact hbyte.symm.trans (htable entry (List.mem_of_find?_eq_some hfind))

theorem decodeRegister_eq_ok_iff {b : Byte} {r : RegName} : decodeRegister b = .ok r ↔ b = registerByte r := by
  constructor
  · intro h
    unfold decodeRegister at h
    split at h
    · next q hq =>
      cases h
      exact eq_registerByte_of_registerOfByte hq
    · cases h
  · rintro rfl
    exact decodeRegister_registerByte r

theorem decodeRegister_succeeds {b : Byte} (h : b.toNat ≤ 10) : ∃ r, decodeRegister b = .ok r := by
  obtain ⟨r, hr⟩ : ∃ r, registerOfByte b = some r :=
    Option.ne_none_iff_exists'.mp fun hnone => absurd ((registerOfByte_eq_none_iff b).mp hnone) (by omega)
  exact ⟨r, decodeRegister_eq_ok_iff.mpr (eq_registerByte_of_registerOfByte hr)⟩

theorem exceptBind_eq_ok_iff {ε α β : Type} {x : Except ε α} {f : α → Except ε β} {b : β} :
    x.bind f = .ok b ↔ ∃ a, x = .ok a ∧ f a = .ok b := by
  refine ⟨ok_of_exceptBind_eq_ok, ?_⟩
  rintro ⟨a, rfl, hf⟩
  exact hf

theorem exceptMap_eq_ok_iff {ε α β : Type} {x : Except ε α} {f : α → β} {b : β} :
    x.map f = .ok b ↔ ∃ a, x = .ok a ∧ b = f a := by
  cases x with
  | error e => simp [Except.map]
  | ok a => simp [Except.map, eq_comm]

/-! What each format decodes to: exactly the instruction whose register fields hold the bytes. -/

theorem decodeRRR_eq_ok_iff {make : RegName → RegName → RegName → Instr} {raw : RawInstr} {i : Instr} :
    decodeRRR make raw = .ok i ↔ ∃ ra rb rc, raw.b1 = registerByte ra ∧ raw.b2 = registerByte rb
      ∧ raw.b3 = registerByte rc ∧ i = make ra rb rc := by
  simp only [decodeRRR, exceptBind_eq_ok_iff, exceptMap_eq_ok_iff, decodeRegister_eq_ok_iff, exists_and_left]

theorem decodeRRI_eq_ok_iff {make : RegName → RegName → Int → Instr} {raw : RawInstr} {i : Instr} :
    decodeRRI make raw = .ok i ↔ ∃ ra rb, raw.b1 = registerByte ra ∧ raw.b2 = registerByte rb
      ∧ i = make ra rb (decodeImm8 raw.b3) := by
  simp only [decodeRRI, exceptBind_eq_ok_iff, exceptMap_eq_ok_iff, decodeRegister_eq_ok_iff, exists_and_left]

theorem decodeRI16_eq_ok_iff {make : RegName → Int → Instr} {raw : RawInstr} {i : Instr} :
    decodeRI16 make raw = .ok i ↔ ∃ ra, raw.b1 = registerByte ra ∧ i = make ra (decodeImm16 raw.b2 raw.b3) := by
  simp only [decodeRI16, exceptMap_eq_ok_iff, decodeRegister_eq_ok_iff]

theorem decodeR_eq_ok_iff {make : RegName → Instr} {raw : RawInstr} {i : Instr} :
    decodeR make raw = .ok i ↔ ∃ ra, raw.b1 = registerByte ra ∧ i = make ra := by
  simp only [decodeR, exceptMap_eq_ok_iff, decodeRegister_eq_ok_iff]

/-- Bytes that begin with an opcode's number are decoded by that opcode's format (R106). -/
theorem decode_of_opcodeByte {op : Opcode} {raw : RawInstr} (h : raw.b0 = opcodeByte op) :
    decode raw = decodeFields op raw := by
  simp only [decode, h, opcodeOfByte_opcodeByte]

/-! The immediate fields: the signed reading of a field is in its range, and field and number determine each other (R95, R96, R105). -/

theorem ofInt_decodeImm8 (b : Byte) : BitVec.ofInt 8 (decodeImm8 b) = b := BitVec.ofInt_toInt

theorem imm8InRange_eq_true_iff (n : Int) : imm8InRange n = true ↔ -128 ≤ n ∧ n ≤ 127 := by
  simp only [imm8InRange, Bool.and_eq_true, decide_eq_true_eq]

theorem imm16InRange_eq_true_iff (n : Int) : imm16InRange n = true ↔ -32768 ≤ n ∧ n ≤ 32767 := by
  simp only [imm16InRange, Bool.and_eq_true, decide_eq_true_eq]

theorem imm8InRange_decodeImm8 (b : Byte) : imm8InRange (decodeImm8 b) = true := by
  have hlow := BitVec.le_toInt b
  have hhigh := BitVec.toInt_lt (x := b)
  rw [imm8InRange_eq_true_iff, decodeImm8]
  omega

theorem imm16InRange_decodeImm16 (b2 b3 : Byte) : imm16InRange (decodeImm16 b2 b3) = true := by
  have hlow := BitVec.le_toInt (b3 ++ b2)
  have hhigh := BitVec.toInt_lt (x := b3 ++ b2)
  rw [imm16InRange_eq_true_iff, decodeImm16]
  omega

/-- The two bytes of a 16-bit field are the bytes it was read from. -/
theorem extractLsb'_decodeImm16 (b2 b3 : Byte) :
    (BitVec.ofInt 16 (decodeImm16 b2 b3)).extractLsb' 0 8 = b2
      ∧ (BitVec.ofInt 16 (decodeImm16 b2 b3)).extractLsb' 8 8 = b3 := by
  have hfield : BitVec.ofInt 16 (decodeImm16 b2 b3) = b3 ++ b2 := BitVec.ofInt_toInt
  rw [hfield]
  exact ⟨BitVec.extractLsb'_append_eq_right, BitVec.extractLsb'_append_eq_left⟩

theorem toInt_ofInt_16 {n : Int} (h : imm16InRange n = true) : (BitVec.ofInt 16 n).toInt = n := by
  rw [imm16InRange_eq_true_iff] at h
  exact BitVec.toInt_ofInt_eq_self (by decide) (by omega) (by omega)

theorem decodeImm16_extractLsb' {n : Int} (h : imm16InRange n = true) :
    decodeImm16 ((BitVec.ofInt 16 n).extractLsb' 0 8) ((BitVec.ofInt 16 n).extractLsb' 8 8) = n := by
  have hfield : (BitVec.ofInt 16 n).extractLsb' 8 8 ++ (BitVec.ofInt 16 n).extractLsb' 0 8 = BitVec.ofInt 16 n :=
    (BitVec.extractLsb'_append_extractLsb'_eq_extractLsb' rfl).trans BitVec.extractLsb'_eq_self
  rw [decodeImm16, hfield, toInt_ofInt_16 h]

/-! Decode after encode, format by format. -/

theorem decodeRRR_encodeRRR (make : RegName → RegName → RegName → Instr) (op : Opcode) (ra rb rc : RegName) :
    decodeRRR make (encodeRRR op ra rb rc) = .ok (make ra rb rc) :=
  decodeRRR_eq_ok_iff.mpr ⟨ra, rb, rc, rfl, rfl, rfl, rfl⟩

theorem decodeRRI_encodeRRI (make : RegName → RegName → Int → Instr) (op : Opcode) (ra rb : RegName) {n : Int}
    (h : imm8InRange n = true) : decodeRRI make (encodeRRI op ra rb n) = .ok (make ra rb n) :=
  decodeRRI_eq_ok_iff.mpr ⟨ra, rb, rfl, rfl, by rw [encodeRRI, decodeImm8_ofInt n h]⟩

theorem decodeRI16_encodeRI16 (make : RegName → Int → Instr) (op : Opcode) (ra : RegName) {n : Int}
    (h : imm16InRange n = true) : decodeRI16 make (encodeRI16 op ra n) = .ok (make ra n) :=
  decodeRI16_eq_ok_iff.mpr ⟨ra, rfl, by rw [encodeRI16, decodeImm16_extractLsb' h]⟩

theorem encode_b0 (i : Instr) : (encode i).b0 = opcodeByte (Laws.opcodeOf i) := by
  cases i <;> rfl

/-- Decoding gives back every instruction value (R110). -/
theorem decode_encode {i : Instr} (h : i.wellFormed = true) : decode (encode i) = .ok i := by
  rw [decode_of_opcodeByte (encode_b0 i)]
  cases i with
  | addI rd r1 r2 | subI rd r1 r2 | mulI rd r1 r2 | divI rd r1 r2 => exact decodeRRR_encodeRRR _ _ rd r1 r2
  | addN ra rb n | subN ra rb n | mulN ra rb n | divN ra rb n | loadI ra rb n | storeI ra rb n | jumpZero ra rb n
  | jumpGT ra rb n => exact decodeRRI_encodeRRI _ _ ra rb h
  | setILow ra n | setIHigh ra n | jump ra n => exact decodeRI16_encodeRI16 _ _ ra h
  | endRun rout => exact decodeR_eq_ok_iff.mpr ⟨rout, rfl, rfl⟩
  | sysCall => rfl

/-! Encode after decode, format by format. -/

theorem encodeRRR_of_bytes {op : Opcode} {raw : RawInstr} {ra rb rc : RegName} (h0 : raw.b0 = opcodeByte op)
    (h1 : raw.b1 = registerByte ra) (h2 : raw.b2 = registerByte rb) (h3 : raw.b3 = registerByte rc) :
    encodeRRR op ra rb rc = raw := by
  rw [encodeRRR, ← h0, ← h1, ← h2, ← h3]

theorem encodeRRI_of_bytes {op : Opcode} {raw : RawInstr} {ra rb : RegName} (h0 : raw.b0 = opcodeByte op)
    (h1 : raw.b1 = registerByte ra) (h2 : raw.b2 = registerByte rb) : encodeRRI op ra rb (decodeImm8 raw.b3) = raw := by
  rw [encodeRRI, ofInt_decodeImm8, ← h0, ← h1, ← h2]

theorem encodeRI16_of_bytes {op : Opcode} {raw : RawInstr} {ra : RegName} (h0 : raw.b0 = opcodeByte op)
    (h1 : raw.b1 = registerByte ra) : encodeRI16 op ra (decodeImm16 raw.b2 raw.b3) = raw := by
  obtain ⟨hlow, hhigh⟩ := extractLsb'_decodeImm16 raw.b2 raw.b3
  rw [encodeRI16, hlow, hhigh, ← h0, ← h1]

end Sys2Proof

namespace Sys2Proof.Machine

theorem clearIgnored_eq_self {raw : RawInstr} (hend : raw.b0 ≠ 0x0F) (hsys : raw.b0 ≠ 0x10) : clearIgnored raw = raw := by
  rw [clearIgnored, if_neg hend, if_neg hsys]

/-- Encoding gives back the bytes, but for those that hold no operand (R110). -/
theorem encode_of_decode {raw : RawInstr} {i : Instr} (h : decode raw = .ok i) : encode i = clearIgnored raw := by
  obtain ⟨op, h0, hfields⟩ := decode_ok h
  cases op with
  | addI | subI | mulI | divI =>
    obtain ⟨ra, rb, rc, h1, h2, h3, rfl⟩ := decodeRRR_eq_ok_iff.mp hfields
    rw [clearIgnored_eq_self (by rw [h0]; decide) (by rw [h0]; decide)]
    exact encodeRRR_of_bytes h0 h1 h2 h3
  | addN | subN | mulN | divN | loadI | storeI | jumpZero | jumpGT =>
    obtain ⟨ra, rb, h1, h2, rfl⟩ := decodeRRI_eq_ok_iff.mp hfields
    rw [clearIgnored_eq_self (by rw [h0]; decide) (by rw [h0]; decide)]
    exact encodeRRI_of_bytes h0 h1 h2
  | setILow | setIHigh | jump =>
    obtain ⟨ra, h1, rfl⟩ := decodeRI16_eq_ok_iff.mp hfields
    rw [clearIgnored_eq_self (by rw [h0]; decide) (by rw [h0]; decide)]
    exact encodeRI16_of_bytes h0 h1
  | endRun =>
    obtain ⟨ra, h1, rfl⟩ := decodeR_eq_ok_iff.mp hfields
    have hopcode : raw.b0 = 0x0F := h0
    rw [clearIgnored, if_pos hopcode, encode, ← h0, ← h1]
  | sysCall =>
    cases hfields
    have hopcode : raw.b0 = 0x10 := h0
    rw [clearIgnored, if_neg (by rw [hopcode]; decide), if_pos hopcode, encode, ← h0]

/-- Settles O7: both round trips go format by format; an instruction value is what its own encoding decodes to, so both injectivity
clauses follow from the first round trip. -/
theorem decodeEncodeRoundTrip : Obligations.DecodeEncodeRoundTrip := by
  have eq_of_decode_eq {i j : Instr} (hi : i.wellFormed = true) (hj : j.wellFormed = true)
      (h : decode (encode i) = decode (encode j)) : i = j := by
    rw [decode_encode hi, decode_encode hj] at h
    exact Except.ok.inj h
  refine ⟨fun _ => decode_encode, fun _ _ => encode_of_decode, ?encodeInjective, ?decodeInjective⟩
  case encodeInjective =>
    intro i j hi hj h
    exact eq_of_decode_eq hi hj (congrArg decode h)
  case decodeInjective =>
    intro i j hi hj h
    exact congrArg encode (eq_of_decode_eq hi hj h)

/-! The bytes that decode (R106). -/

theorem wellFormed_of_decode {raw : RawInstr} {i : Instr} (h : decode raw = .ok i) : i.wellFormed = true := by
  obtain ⟨op, _, hfields⟩ := decode_ok h
  cases op with
  | addI | subI | mulI | divI =>
    obtain ⟨_, _, _, _, _, _, rfl⟩ := decodeRRR_eq_ok_iff.mp hfields
    rfl
  | addN | subN | mulN | divN | loadI | storeI | jumpZero | jumpGT =>
    obtain ⟨_, _, _, _, rfl⟩ := decodeRRI_eq_ok_iff.mp hfields
    exact imm8InRange_decodeImm8 raw.b3
  | setILow | setIHigh | jump =>
    obtain ⟨_, _, rfl⟩ := decodeRI16_eq_ok_iff.mp hfields
    exact imm16InRange_decodeImm16 raw.b2 raw.b3
  | endRun =>
    obtain ⟨_, _, rfl⟩ := decodeR_eq_ok_iff.mp hfields
    rfl
  | sysCall =>
    cases hfields
    rfl

theorem opcodeOfByte_succeeds {b : Byte} (h : b.toNat ≤ 0x10) : ∃ op, opcodeOfByte b = some op :=
  Option.ne_none_iff_exists'.mp fun hnone => absurd ((opcodeOfByte_eq_none_iff b).mp hnone) (by omega)

theorem decodeRRR_succeeds (make : RegName → RegName → RegName → Instr) {raw : RawInstr} (h1 : raw.b1.toNat ≤ 10)
    (h2 : raw.b2.toNat ≤ 10) (h3 : raw.b3.toNat ≤ 10) : ∃ i, decodeRRR make raw = .ok i := by
  obtain ⟨ra, ha⟩ := decodeRegister_succeeds h1
  obtain ⟨rb, hb⟩ := decodeRegister_succeeds h2
  obtain ⟨rc, hc⟩ := decodeRegister_succeeds h3
  exact ⟨make ra rb rc, by simp only [decodeRRR, ha, hb, hc, Except.bind, Except.map]⟩

theorem decodeRRI_succeeds (make : RegName → RegName → Int → Instr) {raw : RawInstr} (h1 : raw.b1.toNat ≤ 10)
    (h2 : raw.b2.toNat ≤ 10) : ∃ i, decodeRRI make raw = .ok i := by
  obtain ⟨ra, ha⟩ := decodeRegister_succeeds h1
  obtain ⟨rb, hb⟩ := decodeRegister_succeeds h2
  exact ⟨make ra rb (decodeImm8 raw.b3), by simp only [decodeRRI, ha, hb, Except.bind, Except.map]⟩

theorem map_decodeRegister_succeeds (make : RegName → Instr) {b : Byte} (h : b.toNat ≤ 10) :
    ∃ i, (decodeRegister b).map make = .ok i := by
  obtain ⟨ra, ha⟩ := decodeRegister_succeeds h
  exact ⟨make ra, by simp only [ha, Except.map]⟩

/-- Legal bytes decode: the opcode number says which bytes are register positions, and each of those names a register. -/
theorem decode_succeeds_of_not_illegalBytes {raw : RawInstr} (h : ¬ illegalBytes raw) : ∃ i, decode raw = .ok i := by
  unfold illegalBytes at h
  obtain ⟨op, hop⟩ := opcodeOfByte_succeeds (b := raw.b0) (by omega)
  have h0 := eq_opcodeByte_of_opcodeOfByte hop
  rw [decode_of_opcodeByte h0]
  cases op with
  | addI | subI | mulI | divI =>
    have hb0 : raw.b0.toNat ≤ 0x03 := by rw [h0]; decide
    exact decodeRRR_succeeds _ (by omega) (by omega) (by omega)
  | addN | subN | mulN | divN | loadI | storeI =>
    have hb0 : raw.b0.toNat ≤ 0x09 := by rw [h0]; decide
    exact decodeRRI_succeeds _ (by omega) (by omega)
  | jumpZero | jumpGT =>
    have hb0 : raw.b0.toNat = 0x0D ∨ raw.b0.toNat = 0x0E := by rw [h0]; decide
    exact decodeRRI_succeeds _ (by omega) (by omega)
  | setILow | setIHigh | jump | endRun =>
    have hb0 : raw.b0.toNat ≤ 0x0F := by rw [h0]; decide
    exact map_decodeRegister_succeeds _ (by omega)
  | sysCall => exact ⟨.sysCall, rfl⟩

/-- Settles O8: illegal bytes are rejected, legal bytes decode, and what decodes is well-formed. -/
theorem decodeRejectsExactlyIllegalBytes : Obligations.DecodeRejectsExactlyIllegalBytes := by
  intro raw
  refine ⟨decode_error_of_illegalBytes, ?_⟩
  intro hlegal
  obtain ⟨i, hi⟩ := decode_succeeds_of_not_illegalBytes hlegal
  exact ⟨i, hi, wellFormed_of_decode hi⟩

/-- Settles O11: each word is evaluated by the decoder. -/
theorem sampleWordsDecode : Obligations.SampleWordsDecode := by
  unfold Obligations.SampleWordsDecode
  decide

end Sys2Proof.Machine

/-! The results with the library's 32-bit operations (spec/93_implementation_defined.md G2). -/

namespace Sys2Proof.Machine

theorem addWord_eq (a b : Word) : addWord a b = a + b := by
  rw [addWord, wrap32, BitVec.ofInt_add, BitVec.ofInt_toInt, BitVec.ofInt_toInt]

theorem subWord_eq (a b : Word) : subWord a b = a - b := by
  rw [subWord, wrap32, Int.sub_eq_add_neg, BitVec.ofInt_add, BitVec.ofInt_neg, BitVec.ofInt_toInt, BitVec.ofInt_toInt,
    BitVec.sub_eq_add_neg]

theorem mulWord_eq (a b : Word) : mulWord a b = a * b := by
  rw [mulWord, wrap32, BitVec.ofInt_mul, BitVec.ofInt_toInt, BitVec.ofInt_toInt]

/-- The wrapped truncated quotient is the library's signed division, the minimum divided by -1 included (R155). -/
theorem sdivWord_eq (a b : Word) : sdivWord a b = a.sdiv b := by
  apply BitVec.eq_of_toInt_eq
  rw [sdivWord, wrap32, BitVec.toInt_ofInt, BitVec.toInt_sdiv]

theorem scaledAddress_eq (base : Word) (off : Int) : scaledAddress base off = base + 4 * BitVec.ofInt 32 off := by
  rw [scaledAddress, wrap32, BitVec.ofInt_add, BitVec.ofInt_mul, BitVec.ofInt_toInt, BitVec.ofInt_toInt]
  rfl

theorem zext16_eq_append (n : Int) : zext16 n = (0 : BitVec 16) ++ BitVec.ofInt 16 n :=
  BitVec.setWidth_eq_append (by decide)

/-- The zero-extended field shifted into bits 31:16 (R181). -/
theorem zext16_shiftLeft (n : Int) : zext16 n <<< 16 = BitVec.ofInt 16 n ++ (0 : BitVec 16) := by
  rw [zext16, BitVec.shiftLeft_eq_concat_of_lt (by decide)]
  refine congrArg (· ++ (0 : BitVec 16)) (BitVec.eq_of_toNat_eq ?_)
  simp only [BitVec.extractLsb'_toNat, BitVec.toNat_setWidth, Nat.shiftRight_zero]
  omega

theorem answer_eq_some_iff {α : Type} {e : Except FaultKind α} {v : α} : answer e = some v ↔ e = .ok v := by
  cases e <;> simp [answer]

theorem answer_eq_none_iff {α : Type} {e : Except FaultKind α} : answer e = none ↔ ∃ k, e = .error k := by
  cases e <;> simp [answer]

theorem State.writeQuotient_zero (s : State) (rd : RegName) (n : Word) :
    s.writeQuotient rd n 0 = .error .arithmeticFault := rfl

theorem State.writeQuotient_of_ne_zero (s : State) (rd : RegName) (n : Word) {d : Word} (h : d ≠ 0) :
    s.writeQuotient rd n d = s.writeReg rd (n.sdiv d) := by
  rw [State.writeQuotient, if_neg h, sdivWord_eq]

/-! The 11 instructions that have a destination: where no earlier stage faults they are one register write of their result and the
advance (spec/40_interpreter_cycle.md R133). -/

theorem exec_of_result {i : Instr} {s : State} {rd : RegName} {v : Word} (hdest : destination i = some rd)
    (hresult : resultValue s i = some v) : exec i s = s.endWithAdvance (s.writeReg rd v) := by
  cases i with
  | addI | addN =>
    cases hdest
    cases hresult
    simp only [exec, execAddI, execAddN, addWord_eq, sext32, wrap32]
  | subI | subN =>
    cases hdest
    cases hresult
    simp only [exec, execSubI, execSubN, subWord_eq, sext32, wrap32]
  | mulI | mulN =>
    cases hdest
    cases hresult
    simp only [exec, execMulI, execMulN, mulWord_eq, sext32, wrap32]
  | divI | divN =>
    cases hdest
    simp only [resultValue] at hresult
    split at hresult
    · cases hresult
    · next hdivisor =>
      cases hresult
      simp only [exec, execDivI, execDivN, sext32, wrap32, State.writeQuotient_of_ne_zero s rd _ hdivisor]
  | loadI rd' ra off8 =>
    cases hdest
    have hload := answer_eq_some_iff.mp hresult
    simp only [exec, execLoadI, State.effectiveAddress, scaledAddress_eq, hload, Except.bind]
  | setILow =>
    cases hdest
    cases hresult
    rfl
  | setIHigh =>
    cases hdest
    cases hresult
    simp only [exec, execSetIHigh, zext16_shiftLeft]
  | storeI | jump | jumpZero | jumpGT | endRun | sysCall => cases hdest

/-- Where an earlier stage faults, the fault is all that happens (R133, R246). -/
theorem exec_of_no_result {i : Instr} {s : State} {rd : RegName} (hdest : destination i = some rd)
    (hresult : resultValue s i = none) : ∃ k, exec i s = .next (s.raise k) := by
  cases i with
  | addI | addN | subI | subN | mulI | mulN | setILow | setIHigh => cases hresult
  | divI | divN =>
    simp only [resultValue] at hresult
    split at hresult
    · next hdivisor =>
      refine ⟨.arithmeticFault, ?_⟩
      simp only [exec, execDivI, execDivN, sext32, wrap32, hdivisor, State.writeQuotient_zero, State.endWithAdvance]
    · cases hresult
  | loadI rd' ra off8 =>
    obtain ⟨k, hload⟩ := answer_eq_none_iff.mp hresult
    refine ⟨k, ?_⟩
    simp only [exec, execLoadI, State.effectiveAddress, scaledAddress_eq, hload, Except.bind, State.endWithAdvance]
  | storeI | jump | jumpZero | jumpGT | endRun | sysCall => cases hdest

/-! All that one instruction other than `SysCall` can do. -/

/-- What an instruction other than `SysCall` can leave behind: a fault of stages 1 to 3 with nothing written; its one write, of the
destination or of the four bytes of a store, and the advance after it; the advance alone, of a jump not taken; the target of a
jump; or a halt. -/
inductive State.Effect (s : State) (i : Instr) : State → Prop
  | raises (k : FaultKind) : State.Effect s i (s.raise k)
  | writes (rd : RegName) (v : Word) (hdest : destination i = some rd) (hzero : rd ≠ .zero)
      (hpc : rd = .programCounter → validPC v = true) : State.Effect s i (s.setReg rd v).advance
  | stores (r1 ra : RegName) (off8 : Int) (m : Memory) (hinstr : i = .storeI r1 ra off8)
      (hwrite : s.mem.writeWord (s.effectiveAddress ra off8) (s.readReg r1) = .ok m) :
      State.Effect s i ({ s with mem := m } : State).advance
  | skips : State.Effect s i s.advance
  | jumps (target : Word) (hvalid : validPC target = true) : State.Effect s i (s.setReg .programCounter target)
  | halts (rout : RegName) (hinstr : i = .endRun rout) : State.Effect s i (s.halt (s.readReg rout))

theorem exec_effect_of_destination {i : Instr} {rd : RegName} (s : State) (hdest : destination i = some rd) :
    ∃ t, exec i s = .next t ∧ s.Effect i t := by
  cases hresult : resultValue s i with
  | none =>
    obtain ⟨k, hexec⟩ := exec_of_no_result hdest hresult
    exact ⟨_, hexec, .raises k⟩
  | some v =>
    rw [exec_of_result hdest hresult]
    rcases s.writeReg_cases rd v with ⟨_, hwrite⟩ | ⟨_, _, hwrite⟩ | ⟨hzero, hpc, hwrite⟩
    · exact ⟨_, by rw [hwrite]; rfl, .raises _⟩
    · exact ⟨_, by rw [hwrite]; rfl, .raises _⟩
    · exact ⟨_, by rw [hwrite]; rfl, .writes rd v hdest hzero hpc⟩

theorem State.takeJump_effect (s : State) (i : Instr) (target : Word) :
    ∃ t, s.takeJump target = .next t ∧ s.Effect i t := by
  rcases s.takeJump_cases target with ⟨hvalid, hjump⟩ | ⟨_, hjump⟩
  · exact ⟨_, hjump, .jumps target hvalid⟩
  · exact ⟨_, hjump, .raises _⟩

theorem State.skipJump_eq (s : State) : s.skipJump = .next s.advance := rfl

theorem execStoreI_effect (s : State) (r1 ra : RegName) (off8 : Int) :
    ∃ t, execStoreI r1 ra off8 s = .next t ∧ s.Effect (.storeI r1 ra off8) t := by
  unfold execStoreI
  cases hstore : s.writeWord (s.effectiveAddress ra off8) (s.readReg r1) with
  | error k => exact ⟨_, rfl, .raises k⟩
  | ok u =>
    obtain ⟨m, hwrite, rfl⟩ := State.writeWord_ok hstore
    exact ⟨_, rfl, .stores r1 ra off8 m rfl hwrite⟩

/-- Every instruction other than `SysCall` answers a next state, and `State.Effect` says which ones it can be. -/
theorem exec_effect {i : Instr} (s : State) (hi : i ≠ .sysCall) : ∃ t, exec i s = .next t ∧ s.Effect i t := by
  cases i with
  | addI rd | subI rd | mulI rd | divI rd | addN rd | subN rd | mulN rd | divN rd | loadI rd | setILow rd | setIHigh rd =>
    exact exec_effect_of_destination s rfl
  | storeI r1 ra off8 => exact execStoreI_effect s r1 ra off8
  | jump ra off16 => exact s.takeJump_effect _ _
  | jumpZero rc ra off8 =>
    simp only [exec, execJumpZero]
    split
    · exact s.takeJump_effect _ _
    · exact ⟨_, s.skipJump_eq, .skips⟩
  | jumpGT rc ra off8 =>
    simp only [exec, execJumpGT]
    split
    · exact s.takeJump_effect _ _
    · exact ⟨_, s.skipJump_eq, .skips⟩
  | endRun rout => exact ⟨_, rfl, .halts rout rfl⟩
  | sysCall => exact absurd rfl hi

theorem effect_of_exec {i : Instr} {s t : State} (hi : i ≠ .sysCall) (h : exec i s = .next t) : s.Effect i t := by
  obtain ⟨u, hexec, heffect⟩ := exec_effect s hi
  rw [hexec] at h
  cases h
  exact heffect

/-! What the advance leaves unchanged. -/

theorem State.SameFixed.refl (s : State) : s.SameFixed s := ⟨rfl, rfl, rfl, rfl, rfl⟩

theorem State.SameFixed.trans {s t u : State} (h1 : s.SameFixed t) (h2 : t.SameFixed u) : s.SameFixed u := by
  obtain ⟨himem, hsize, htop, hmode, hres⟩ := h1
  obtain ⟨himem', hsize', htop', hmode', hres'⟩ := h2
  exact ⟨himem'.trans himem, hsize'.trans hsize, htop'.trans htop, hmode'.trans hmode, hres'.trans hres⟩

theorem State.advance_frame (s : State) :
    s.SameRegsBut s.advance [.programCounter] ∧ s.advance.mem = s.mem ∧ s.SameFixed s.advance ∧ s.SameHandler s.advance := by
  rcases s.advance_cases with ⟨_, hadv⟩ | ⟨_, hadv⟩
  · rw [hadv]
    obtain ⟨hregs, _, hfixed, hhandler, _⟩ := s.sameBut_setReg .programCounter (s.pc + 4) _ (List.mem_singleton_self _)
    exact ⟨hregs, rfl, hfixed, hhandler⟩
  · rw [hadv]
    exact ⟨fun _ _ => rfl, rfl, .refl s, rfl, rfl⟩

theorem State.run_advance (s : State) : s.advance.run = s.run ∨ s.advance.run = .faulted (.illegalPC (s.pc + 4)) := by
  rcases s.advance_cases with ⟨_, hadv⟩ | ⟨_, hadv⟩
  · exact .inl (by rw [hadv]; rfl)
  · exact .inr (by rw [hadv]; rfl)

theorem State.validPC_advance {s : State} (h : validPC s.pc = true) : validPC s.advance.pc = true := by
  rcases s.advance_cases with ⟨hvalid, hadv⟩ | ⟨_, hadv⟩
  · rw [hadv]
    exact hvalid
  · rw [hadv]
    exact h

/-! The policies that no access, no advance and no fault breaks, and with them the invariant. -/

/-- From `s` to `t` the fixed fields stay, a valid `pc` stays valid (R25) and a canonical memory stays canonical (R57). -/
structure State.KeepsPolicies (s t : State) : Prop where
  fixed : s.SameFixed t
  pc : validPC s.pc = true → validPC t.pc = true
  mem : s.mem.wf = true → t.mem.wf = true

namespace State.KeepsPolicies

theorem refl (s : State) : s.KeepsPolicies s := ⟨.refl s, id, id⟩

theorem trans {s t u : State} (h1 : s.KeepsPolicies t) (h2 : t.KeepsPolicies u) : s.KeepsPolicies u :=
  ⟨h1.fixed.trans h2.fixed, h2.pc ∘ h1.pc, h2.mem ∘ h1.mem⟩

theorem raise (s : State) (k : FaultKind) : s.KeepsPolicies (s.raise k) := ⟨.refl s, id, id⟩

theorem halt (s : State) (v : Word) : s.KeepsPolicies (s.halt v) := ⟨.refl s, id, id⟩

theorem nextInvocation (s : State) (rest : List Invocation) : s.KeepsPolicies (s.nextInvocation rest) := ⟨.refl s, id, id⟩

theorem setReg (s : State) (r : RegName) (v : Word) (hpc : r = .programCounter → validPC v = true) :
    s.KeepsPolicies (s.setReg r v) := by
  refine ⟨.refl s, fun h => ?_, id⟩
  by_cases hr : r = .programCounter
  · rw [hr, State.pc_setReg_pc]
    exact hpc hr
  · rwa [State.pc_setReg_ne s r v hr]

theorem writeWord {s : State} {a v : Word} {m : Memory} (h : s.mem.writeWord a v = .ok m) :
    s.KeepsPolicies { s with mem := m } :=
  ⟨⟨rfl, Memory.size_writeWord h, rfl, rfl, rfl⟩, id, fun hwf => Memory.wf_writeWord hwf h⟩

theorem advance (s : State) : s.KeepsPolicies s.advance := by
  obtain ⟨_, hmem, hfixed, _⟩ := s.advance_frame
  exact ⟨hfixed, State.validPC_advance, fun hwf => by rwa [hmem]⟩

theorem inv {s t : State} (h : s.KeepsPolicies t) (hinv : s.Inv) : t.Inv := by
  obtain ⟨hmem, himem, hpc, hunified⟩ := hinv
  obtain ⟨himem', _, htop', _, _⟩ := h.fixed
  exact ⟨h.mem hmem, by rwa [himem'], h.pc hpc, by rwa [himem', htop']⟩

end State.KeepsPolicies

theorem State.Effect.keepsPolicies {s t : State} {i : Instr} (h : s.Effect i t) : s.KeepsPolicies t := by
  cases h with
  | raises k => exact .raise s k
  | writes rd v _ _ hpc => exact (KeepsPolicies.setReg s rd v hpc).trans (.advance _)
  | stores _ _ _ m _ hwrite => exact (KeepsPolicies.writeWord hwrite).trans (.advance _)
  | skips => exact .advance s
  | jumps target hvalid => exact .setReg s .programCounter target fun _ => hvalid
  | halts rout _ => exact .halt s _

/-! The handler's accesses (spec/47_syscall.md R212, R214). -/

/-- One access of a handler keeps the policies, the record of invocations and the run state (spec/10_state.md R26). -/
theorem State.handlerOp_keeps {s t : State} {op : HandlerOp} (h : s.handlerOp op = .ok t) :
    s.KeepsPolicies t ∧ s.SameHandler t ∧ t.run = s.run := by
  rcases State.handlerOp_ok h with rfl | ⟨r, v, hwrite⟩ | ⟨a, v, hstore⟩
  · exact ⟨.refl t, ⟨rfl, rfl⟩, rfl⟩
  · obtain ⟨_, hpc, rfl⟩ := State.writeReg_ok hwrite
    exact ⟨.setReg s r v hpc, ⟨rfl, rfl⟩, rfl⟩
  · obtain ⟨m, hm, rfl⟩ := State.writeWord_ok hstore
    exact ⟨.writeWord hm, ⟨rfl, rfl⟩, rfl⟩

theorem State.handlerOps_keeps (s : State) (ops : List HandlerOp) :
    s.KeepsPolicies (s.handlerOps ops).1 ∧ s.SameHandler (s.handlerOps ops).1 ∧ (s.handlerOps ops).1.run = s.run := by
  refine State.handlerOps_rel (fun s t => s.KeepsPolicies t ∧ s.SameHandler t ∧ t.run = s.run) ?_ ?_
    (fun _ _ _ => State.handlerOp_keeps) ops s
  · exact fun s => ⟨.refl s, ⟨rfl, rfl⟩, rfl⟩
  · rintro s t u ⟨hpol, ⟨hruns, hcalls⟩, hrun⟩ ⟨hpol', ⟨hruns', hcalls'⟩, hrun'⟩
    exact ⟨hpol.trans hpol', ⟨hruns'.trans hruns, hcalls'.trans hcalls⟩, hrun'.trans hrun⟩

theorem State.runHandler_keepsPolicies (s : State) (r : HandlerRun) : s.KeepsPolicies (s.runHandler r) := by
  obtain ⟨hops, _, _⟩ := s.handlerOps_keeps r.ops
  rcases s.runHandler_cases r with ⟨k, _, hend⟩ | ⟨_, _, hend⟩ | ⟨_, _, hend⟩
  · rw [hend]
    exact hops.trans (.raise _ k)
  · rw [hend]
    exact hops.trans (.raise _ _)
  · rw [hend]
    exact hops.trans (.advance _)

theorem nextHandlerRun_of_execSysCall {s t : State} (h : execSysCall s = .next t) :
    ∃ r rest, s.NextHandlerRun r rest ∧ t = (s.nextInvocation rest).runHandler r := by
  rcases execSysCall_cases s with ⟨r, rest, hnext, hexec⟩ | ⟨_, _, hexec⟩
  · rw [hexec] at h
    cases h
    exact ⟨r, rest, hnext, rfl⟩
  · rw [hexec] at h
    cases h

theorem execSysCall_keepsPolicies {s t : State} (h : execSysCall s = .next t) : s.KeepsPolicies t := by
  obtain ⟨r, rest, _, rfl⟩ := nextHandlerRun_of_execSysCall h
  exact (State.KeepsPolicies.nextInvocation s rest).trans (State.runHandler_keepsPolicies _ r)

theorem exec_keepsPolicies {i : Instr} {s t : State} (h : exec i s = .next t) : s.KeepsPolicies t := by
  by_cases hi : i = .sysCall
  · subst hi
    exact execSysCall_keepsPolicies h
  · exact (effect_of_exec hi h).keepsPolicies

/-! Every step. -/

/-- A step that answers a next state was taken while `Running`, and is a halt past the end, a fetch fault, a decode fault or the
decoded instruction (R130). -/
theorem step_next_cases {s t : State} (h : step s = .next t) : s.run = .running ∧
    ((s.termMode = .runOffEnd ∧ s.hasNextInstruction s.pc = false ∧ t = s.halt (s.readReg s.resultReg))
    ∨ (∃ k, t = s.raise k)
    ∨ ∃ raw i, s.fetchInstruction s.pc = .ok raw ∧ decode raw = .ok i ∧ exec i s = .next t) := by
  rcases step_cases s with ⟨v, _, hstep⟩ | ⟨k, _, hstep⟩ | ⟨hrun, hmode, hnext, hstep⟩ | ⟨k, hrun, _, hstep⟩
    | ⟨raw, e, hrun, _, _, hstep⟩ | ⟨raw, i, hrun, hfetch, hdecode, hstep⟩
  · rw [hstep] at h; cases h
  · rw [hstep] at h; cases h
  · rw [hstep] at h; cases h
    exact ⟨hrun, .inl ⟨hmode, hnext, rfl⟩⟩
  · rw [hstep] at h; cases h
    exact ⟨hrun, .inr (.inl ⟨k, rfl⟩)⟩
  · rw [hstep] at h; cases h
    exact ⟨hrun, .inr (.inl ⟨_, rfl⟩)⟩
  · exact ⟨hrun, .inr (.inr ⟨raw, i, hfetch, hdecode, hstep.symm.trans h⟩)⟩

theorem step_keepsPolicies {s t : State} (h : step s = .next t) : s.KeepsPolicies t := by
  obtain ⟨_, ⟨_, _, rfl⟩ | ⟨k, rfl⟩ | ⟨_, _, _, _, hexec⟩⟩ := step_next_cases h
  · exact .halt s _
  · exact .raise s k
  · exact exec_keepsPolicies hexec

/-- Settles O60: every step keeps the policies, and the invariant is about nothing else. -/
theorem everyStepKeepsTheInvariant : Obligations.EveryStepKeepsTheInvariant := by
  intro s t hinv hstep
  exact (step_keepsPolicies hstep).inv hinv

/-- Settles O55: the fixed fields are among what every step keeps. -/
theorem noStepChangesTheParameters : Obligations.NoStepChangesTheParameters := by
  intro s t hstep
  exact (step_keepsPolicies hstep).fixed

end Sys2Proof.Machine

/-! The instructions with a destination: what they complete with, and what they do when the destination is `Zero` or `PC` or when the
advance faults (files 41 to 44 of spec/, spec/40_interpreter_cycle.md R133 to R135, R142). -/

namespace Sys2Proof.Machine

/-! The two ends of the advance. -/

theorem State.advance_moves {s : State} (h : validPC (s.pc + 4) = true) :
    s.advance.pc = s.pc + 4 ∧ s.SameBut s.advance [.programCounter] := by
  rw [State.advance_of_valid h]
  exact ⟨s.pc_setReg_pc _, s.sameBut_setReg _ _ _ (List.mem_singleton_self _)⟩

/-- At the highest valid `pc` the advance raises and writes nothing (R134, D16). -/
theorem State.advance_of_top {s : State} (h : s.pc = 0x7FFFFFFC) : s.advance = s.raise (.illegalPC 0x80000000) :=
  (defaultAdvanceAddsFourOrFaults s (by rw [h]; decide)).2 h

/-! An ordinary destination. -/

section Plain

variable {i : Instr} {s : State} {rd : RegName} {v : Word}

theorem exec_of_plain_result (hdest : destination i = some rd) (hzero : rd ≠ .zero) (hplain : rd ≠ .programCounter)
    (hresult : resultValue s i = some v) : exec i s = .next (s.setReg rd v).advance := by
  rw [exec_of_result hdest hresult, s.writeReg_of_plain v hzero hplain]
  rfl

/-- The state after an instruction that has written `v` to an ordinary register and has advanced. -/
theorem exec_of_plain_result_valid (hdest : destination i = some rd) (hzero : rd ≠ .zero) (hplain : rd ≠ .programCounter)
    (hresult : resultValue s i = some v) (hpc : validPC (s.pc + 4) = true) :
    exec i s = .next ((s.setReg rd v).setReg .programCounter (s.pc + 4)) := by
  have hsame : (s.setReg rd v).pc = s.pc := s.pc_setReg_ne rd v hplain
  rw [exec_of_plain_result hdest hzero hplain hresult, State.advance_of_valid (by rwa [hsame]), hsame]

theorem writesAndAdvances_of_result (hdest : destination i = some rd) (hzero : rd ≠ .zero) (hplain : rd ≠ .programCounter)
    (hresult : resultValue s i = some v) (hpc : validPC (s.pc + 4) = true) : s.WritesAndAdvances i rd v := by
  refine ⟨_, exec_of_plain_result_valid hdest hzero hplain hresult hpc, ?_, State.pc_setReg_pc _ _, ?_⟩
  · rw [State.readReg_setReg_ne _ _ _ _ hplain, State.readReg_setReg_same _ _ _ hzero]
  · exact (s.sameBut_setReg rd v _ (by simp)).trans (State.sameBut_setReg _ _ _ _ (by simp))

end Plain

/-- Settles O49: it is `writesAndAdvances_of_result`, where `exec_of_result` has the library's operations. -/
theorem resultsAgreeWithMachineArithmetic : Obligations.ResultsAgreeWithMachineArithmetic := by
  intro i s rd v _ hdest hzero hplain hresult hpc
  exact writesAndAdvances_of_result hdest hzero hplain hresult hpc

/-- Settles O18: the wrapped exact sum is the 32-bit sum. -/
theorem addICompletes : Obligations.AddICompletes := by
  intro rd r1 r2 s hzero hplain hpc
  have hresult : resultValue s (.addI rd r1 r2) = some (addWord (s.readReg r2) (s.readReg r1)) :=
    congrArg some (addWord_eq _ _).symm
  exact writesAndAdvances_of_result rfl hzero hplain hresult hpc

/-- Settles O19: the wrapped exact difference is the 32-bit difference. -/
theorem subICompletes : Obligations.SubICompletes := by
  intro rd r1 r2 s hzero hplain hpc
  have hresult : resultValue s (.subI rd r1 r2) = some (subWord (s.readReg r2) (s.readReg r1)) :=
    congrArg some (subWord_eq _ _).symm
  exact writesAndAdvances_of_result rfl hzero hplain hresult hpc

/-- Settles O20: the wrapped exact product is the 32-bit product. -/
theorem mulICompletes : Obligations.MulICompletes := by
  intro rd r1 r2 s hzero hplain hpc
  have hresult : resultValue s (.mulI rd r1 r2) = some (mulWord (s.readReg r2) (s.readReg r1)) :=
    congrArg some (mulWord_eq _ _).symm
  exact writesAndAdvances_of_result rfl hzero hplain hresult hpc

/-- Settles O21: with a divisor that is not 0, the wrapped truncated quotient is the 32-bit signed quotient. -/
theorem divICompletes : Obligations.DivICompletes := by
  intro rd r1 r2 s hzero hplain hpc hdivisor
  have hresult : resultValue s (.divI rd r1 r2) = some (sdivWord (s.readReg r2) (s.readReg r1)) :=
    (if_neg hdivisor).trans (congrArg some (sdivWord_eq _ _).symm)
  exact writesAndAdvances_of_result rfl hzero hplain hresult hpc

/-- An immediate is the signed reading of its sign extension (R9). -/
theorem toInt_ofInt_imm8 {n : Int} (h : imm8InRange n = true) : (BitVec.ofInt 32 n).toInt = n := by
  rw [imm8InRange_eq_true_iff] at h
  exact BitVec.toInt_ofInt_eq_self (by decide) (by omega) (by omega)

/-- Settles O22: the sum with the sign-extended immediate, whose signed reading is `imm8`. -/
theorem addNCompletes : Obligations.AddNCompletes := by
  intro rd r1 imm8 s himm hzero hplain hpc
  have hresult : resultValue s (.addN rd r1 imm8) = some (addWord (s.readReg r1) (BitVec.ofInt 32 imm8)) :=
    congrArg some (addWord_eq _ _).symm
  rw [addWord, toInt_ofInt_imm8 himm] at hresult
  exact writesAndAdvances_of_result rfl hzero hplain hresult hpc

/-- Settles O23: the difference with the sign-extended immediate. -/
theorem subNCompletes : Obligations.SubNCompletes := by
  intro rd r1 imm8 s himm hzero hplain hpc
  have hresult : resultValue s (.subN rd r1 imm8) = some (subWord (s.readReg r1) (BitVec.ofInt 32 imm8)) :=
    congrArg some (subWord_eq _ _).symm
  rw [subWord, toInt_ofInt_imm8 himm] at hresult
  exact writesAndAdvances_of_result rfl hzero hplain hresult hpc

/-- Settles O24: the product with the sign-extended immediate. -/
theorem mulNCompletes : Obligations.MulNCompletes := by
  intro rd r1 imm8 s himm hzero hplain hpc
  have hresult : resultValue s (.mulN rd r1 imm8) = some (mulWord (s.readReg r1) (BitVec.ofInt 32 imm8)) :=
    congrArg some (mulWord_eq _ _).symm
  rw [mulWord, toInt_ofInt_imm8 himm] at hresult
  exact writesAndAdvances_of_result rfl hzero hplain hresult hpc

/-- Settles O25: an immediate in range that is not 0 extends to a divisor that is not 0, and the quotient is the truncated one. -/
theorem divNCompletes : Obligations.DivNCompletes := by
  intro rd r1 imm8 s himm hne hzero hplain hpc
  have hdivisor : BitVec.ofInt 32 imm8 ≠ 0 := by
    intro h
    have hread := toInt_ofInt_imm8 himm
    rw [h] at hread
    exact hne hread.symm
  have hresult : resultValue s (.divN rd r1 imm8) = some (sdivWord (s.readReg r1) (BitVec.ofInt 32 imm8)) :=
    (if_neg hdivisor).trans (congrArg some (sdivWord_eq _ _).symm)
  rw [sdivWord, toInt_ofInt_imm8 himm] at hresult
  exact writesAndAdvances_of_result rfl hzero hplain hresult hpc

/-- Settles O32: the zero-extended field is the field below 16 zero bits. -/
theorem setILowCompletes : Obligations.SetILowCompletes := by
  intro rd imm16 s _ hzero hplain hpc
  have hresult : resultValue s (.setILow rd imm16) = some (s.readReg rd ||| ((0 : BitVec 16) ++ BitVec.ofInt 16 imm16)) :=
    congrArg (fun w => some (s.readReg rd ||| w)) (zext16_eq_append imm16)
  exact writesAndAdvances_of_result rfl hzero hplain hresult hpc

/-- Settles O33: `exec_of_result` has the shifted field as the field above 16 zero bits. -/
theorem setIHighCompletes : Obligations.SetIHighCompletes := by
  intro rd imm16 s _ hzero hplain hpc
  exact writesAndAdvances_of_result rfl hzero hplain rfl hpc

/-! The destinations `Zero` and `PC`, and the advance's fault. -/

/-- Settles O47: the one register write is refused by the policy of `Zero`. -/
theorem zeroDestinationRaisesIllegalOperation : Obligations.ZeroDestinationRaisesIllegalOperation := by
  intro i s v _ hdest hresult
  unfold State.RaisesOnly
  rw [exec_of_result hdest hresult, State.writeReg_zero]
  rfl

theorem exec_of_pc_result {i : Instr} {s : State} {v : Word} (hdest : destination i = some .programCounter)
    (hresult : resultValue s i = some v) (hvalid : validPC v = true) :
    exec i s = .next (s.setReg .programCounter v).advance := by
  rw [exec_of_result hdest hresult, s.writeReg_pc v hvalid]
  rfl

/-- Settles O48: the write is refused, or `pc` is `v` and the advance starts from there. -/
theorem pcDestinationWritesThenAdvances : Obligations.PcDestinationWritesThenAdvances := by
  intro i s v _ hdest hresult
  have hwrite := s.sameBut_setReg .programCounter v [.programCounter] (List.mem_singleton_self _)
  refine ⟨?refused, ?advanced, ?top⟩
  case refused =>
    intro hinvalid
    unfold State.RaisesOnly
    rw [exec_of_result hdest hresult, s.writeReg_pc_of_invalid v hinvalid]
    rfl
  case advanced =>
    intro hvalid hne
    obtain ⟨hpc, hsame⟩ := State.advance_moves (s := s.setReg .programCounter v) ((validPC_add_four_iff hvalid).mpr hne)
    exact ⟨_, exec_of_pc_result hdest hresult hvalid, hpc, hwrite.trans hsame⟩
  case top =>
    intro htop
    refine ⟨_, exec_of_pc_result hdest hresult (by rw [htop]; decide), ?_⟩
    obtain ⟨hregs, hmem, hfixed, hhandler, _⟩ := hwrite
    rw [State.advance_of_top (s := s.setReg .programCounter v) htop]
    exact ⟨rfl, rfl, hregs, hmem, hfixed, hhandler⟩

/-- Settles O26: `writeQuotient` tests the divisor before it looks at the destination. -/
theorem divideByZeroRaisesArithmeticFault : Obligations.DivideByZeroRaisesArithmeticFault := by
  refine ⟨?register, ?immediate⟩
  case register =>
    intro rd r1 r2 s hdivisor
    simp only [State.RaisesOnly, exec, execDivI, hdivisor, State.writeQuotient_zero]
    rfl
  case immediate =>
    intro rd r1 s
    have hdivisor : sext32 0 = 0 := rfl
    simp only [State.RaisesOnly, exec, execDivN, hdivisor, State.writeQuotient_zero]
    rfl

/-! Loads and stores (spec/43_load_store.md). -/

theorem resultValue_loadI (s : State) (rd ra : RegName) (off8 : Int) :
    resultValue s (.loadI rd ra off8) = answer (s.readWord (s.effectiveAddress ra off8)) := by
  rw [State.effectiveAddress, scaledAddress_eq, resultValue]

theorem resultValue_loadI_of_readWord {s : State} {rd ra : RegName} {off8 : Int} {v : Word}
    (h : s.readWord (s.effectiveAddress ra off8) = .ok v) : resultValue s (.loadI rd ra off8) = some v := by
  rw [resultValue_loadI, answer_eq_some_iff, h]

theorem exec_storeI_of_writeWord {s : State} {r1 ra : RegName} {off8 : Int} {m : Memory}
    (h : s.mem.writeWord (s.effectiveAddress ra off8) (s.readReg r1) = .ok m) :
    exec (.storeI r1 ra off8) s = .next ({ s with mem := m } : State).advance := by
  simp only [exec, execStoreI, State.writeWord_of_mem h, State.endWithAdvance]

/-- A load and a store raise the fault of the check at their address, and do nothing else (R241). -/
theorem raisesOnly_of_check_error {s : State} {ra : RegName} {off8 : Int} {k : FaultKind} (r : RegName)
    (h : s.mem.check (s.effectiveAddress ra off8) = .error k) :
    s.RaisesOnly (.loadI r ra off8) k ∧ s.RaisesOnly (.storeI r ra off8) k := by
  unfold State.RaisesOnly
  constructor
  · simp only [exec, execLoadI, State.readWord_of_check_error h, Except.bind]
    rfl
  · simp only [exec, execStoreI, State.writeWord_of_check_error _ h]
    rfl

/-- Settles O27: at an accessible address the load's result is the word of the four bytes. -/
theorem loadICompletes : Obligations.LoadICompletes := by
  rintro rd ra off8 s ea rfl _ h0 h4 haligned hzero hplain hpc
  have hread : s.readWord (s.effectiveAddress ra off8) = .ok _ := Memory.readWord_of_accessible ⟨h0, h4, haligned⟩
  exact writesAndAdvances_of_result rfl hzero hplain (resultValue_loadI_of_readWord hread) hpc

/-- Settles O28: the store is one word write and the advance; the word write has its read-after-write law and its frame. -/
theorem storeICompletes : Obligations.StoreICompletes := by
  rintro r1 ra off8 s ea rfl _ hwf h0 h4 haligned hpc
  obtain ⟨m, hm⟩ := Memory.writeWord_succeeds (s.readReg r1)
    (⟨h0, h4, haligned⟩ : s.mem.accessible (s.effectiveAddress ra off8))
  refine ⟨_, exec_storeI_of_writeWord hm, ?_⟩
  obtain ⟨hb0, hb1, hb2, hb3⟩ := Memory.readByte_writeWord_bytes hwf hm
  rw [State.advance_of_valid (s := { s with mem := m }) hpc]
  exact ⟨hb0, hb1, hb2, hb3, Memory.readByte_writeWord_ne hm, rfl,
    fun r hr => State.readReg_setReg_ne _ _ _ _ (by simpa using hr), ⟨rfl, Memory.size_writeWord hm, rfl, rfl, rfl⟩,
    ⟨rfl, rfl⟩, rfl⟩

/-- Settles O29: the check comes first in both, and its answer decides between the two faults. -/
theorem loadStoreFaultsWriteNothing : Obligations.LoadStoreFaultsWriteNothing := by
  rintro r ra off8 s ea rfl
  refine ⟨?outOfBounds, ?misaligned⟩
  case outOfBounds =>
    intro h
    exact raisesOnly_of_check_error r (Memory.check_of_outOfBounds h)
  case misaligned =>
    intro h0 h4 haligned
    exact raisesOnly_of_check_error r (Memory.check_of_misaligned h0 h4 haligned)

/-- Settles O50: at the highest `pc` the advance raises in the state that the one write has left. -/
theorem advanceFaultKeepsTheWrite : Obligations.AdvanceFaultKeepsTheWrite := by
  refine ⟨?destination, ?store⟩
  case destination =>
    intro i s rd v _ hdest hzero hplain hresult htop
    have hpc : (s.setReg rd v).pc = 0x7FFFFFFC := (s.pc_setReg_ne rd v hplain).trans htop
    refine ⟨_, exec_of_plain_result hdest hzero hplain hresult, ?_⟩
    obtain ⟨hregs, hmem, hfixed, hhandler, _⟩ := s.sameBut_setReg rd v [rd] (List.mem_singleton_self _)
    rw [State.advance_of_top hpc]
    exact ⟨rfl, s.readReg_setReg_same rd v hzero, hpc, hregs, hmem, hfixed, hhandler⟩
  case store =>
    rintro r1 ra off8 s ea rfl hwf h0 h4 haligned htop
    obtain ⟨m, hm⟩ := Memory.writeWord_succeeds (s.readReg r1)
      (⟨h0, h4, haligned⟩ : s.mem.accessible (s.effectiveAddress ra off8))
    refine ⟨_, exec_storeI_of_writeWord hm, ?_⟩
    rw [State.advance_of_top (s := { s with mem := m }) htop]
    exact ⟨rfl, Memory.readWord_writeWord_same hwf hm, Memory.readByte_writeWord_ne hm, fun _ _ => rfl,
      ⟨rfl, Memory.size_writeWord hm, rfl, rfl, rfl⟩, rfl, rfl⟩

/-- If the machine still runs after a store, the word is written and nothing else but `pc` has changed. -/
theorem storeI_completed {s t : State} {r1 ra : RegName} {off8 : Int} (hexec : exec (.storeI r1 ra off8) s = .next t)
    (hrun : t.run = .running) : s.mem.writeWord (s.effectiveAddress ra off8) (s.readReg r1) = .ok t.mem
      ∧ s.SameRegsBut t [.programCounter] ∧ s.SameFixed t := by
  simp only [exec, execStoreI] at hexec
  rcases s.endWithAdvance_cases (s.writeWord (s.effectiveAddress ra off8) (s.readReg r1)) with
    ⟨k, _, hend⟩ | ⟨u, hstore, hend⟩
  · rw [hend] at hexec
    cases hexec
    cases hrun
  · rw [hend] at hexec
    cases hexec
    obtain ⟨m, hm, rfl⟩ := State.writeWord_ok hstore
    obtain ⟨hregs, hmem, hfixed, _⟩ := ({ s with mem := m } : State).advance_frame
    exact ⟨by rwa [hmem], hregs, (State.KeepsPolicies.writeWord hm).fixed.trans hfixed⟩

/-- Settles O30: the store leaves the base register alone, so the load reads the word just written. -/
theorem loadAfterStoreGivesTheWord : Obligations.LoadAfterStoreGivesTheWord := by
  intro r1 ra rd off8 s t hwf hbase hzero hplain _ hexec hrun hpc
  obtain ⟨hstore, hregs, _⟩ := storeI_completed hexec hrun
  have hea : t.effectiveAddress ra off8 = s.effectiveAddress ra off8 := by
    rw [State.effectiveAddress, hregs ra (by simpa using hbase), State.effectiveAddress]
  have hread : t.readWord (t.effectiveAddress ra off8) = .ok (s.readReg r1) := by
    rw [hea]
    exact Memory.readWord_writeWord_same hwf hstore
  obtain ⟨u, hload, hvalue, _, hframe⟩ :=
    writesAndAdvances_of_result rfl hzero hplain (resultValue_loadI_of_readWord (rd := rd) hread) hpc
  exact ⟨u, hload, hvalue, hframe⟩

/-- The word at an address is the word of the four bytes fetched there (R55, R56, R92). -/
theorem Memory.readWord_eq_word_of_fetch (m : Memory) (a : Word) : m.readWord a = (m.fetch a).map RawInstr.word := by
  unfold Memory.readWord Memory.fetch
  cases m.check a <;> rfl

theorem Memory.fetch_of_readWord {m : Memory} {a v : Word} (h : m.readWord a = .ok v) :
    ∃ raw, m.fetch a = .ok raw ∧ raw.word = v := by
  rw [Memory.readWord_eq_word_of_fetch, exceptMap_eq_ok_iff] at h
  obtain ⟨raw, hraw, rfl⟩ := h
  exact ⟨raw, hraw, rfl⟩

theorem State.instrStore_unified {s : State} (h : s.topology = .unified) : s.instrStore = s.mem := by
  rw [State.instrStore, h]

theorem State.instrStore_segregated {s : State} (h : s.topology = .segregated) : s.instrStore = s.imem := by
  rw [State.instrStore, h]

/-- Settles O31: the array that was stored to is the one that `Unified` fetches from, and is not the one that `Segregated` does. -/
theorem storesReachFetchInUnifiedOnly : Obligations.StoresReachFetchInUnifiedOnly := by
  intro r1 ra off8 s t hwf _ hexec hrun
  obtain ⟨hstore, _, himem, _, htopology, _⟩ := storeI_completed hexec hrun
  refine ⟨?unified, ?segregated⟩
  case unified =>
    intro htop
    rw [State.fetchInstruction, State.instrStore_unified (htopology.trans htop)]
    exact Memory.fetch_of_readWord (Memory.readWord_writeWord_same hwf hstore)
  case segregated =>
    intro htop a
    rw [State.fetchInstruction, State.fetchInstruction, State.instrStore_segregated htop,
      State.instrStore_segregated (htopology.trans htop), himem]

/-! Loading a constant (spec/44_set_imm.md R182). -/

theorem RegFile.set_set_same (f : RegFile) (r : RegName) (v w : Word) : (f.set r v).set r w = f.set r w := by
  cases r <;> rfl

theorem RegFile.set_pc_comm (f : RegFile) {r : RegName} (v w : Word) (h : r ≠ .programCounter) :
    (f.set .programCounter v).set r w = (f.set r w).set .programCounter v := by
  cases r with
  | programCounter => exact absurd rfl h
  | _ => rfl

/-- The state in which `rd` holds `v` and `pc` is `p`, and all else is as in `s`. -/
def State.withRegAndPc (s : State) (rd : RegName) (v p : Word) : State := (s.setReg rd v).setReg .programCounter p

section WithRegAndPc

variable (s : State) {rd : RegName} (v p : Word)

theorem State.readReg_withRegAndPc (hzero : rd ≠ .zero) (hplain : rd ≠ .programCounter) :
    (s.withRegAndPc rd v p).readReg rd = v := by
  rw [State.withRegAndPc, State.readReg_setReg_ne _ _ _ _ hplain, State.readReg_setReg_same _ _ _ hzero]

theorem State.sameBut_withRegAndPc : s.SameBut (s.withRegAndPc rd v p) [rd, .programCounter] :=
  (s.sameBut_setReg rd v _ (by simp)).trans (State.sameBut_setReg _ _ _ _ (by simp))

theorem State.withRegAndPc_withRegAndPc (hplain : rd ≠ .programCounter) (w q : Word) :
    (s.withRegAndPc rd v p).withRegAndPc rd w q = s.withRegAndPc rd w q := by
  simp only [State.withRegAndPc, State.setReg]
  rw [RegFile.set_pc_comm _ _ _ hplain, RegFile.set_set_same, RegFile.set_set_same]

/-- An instruction that writes `w` to `rd`, run where `rd` and `pc` have been set. -/
theorem exec_withRegAndPc {i : Instr} {w : Word} (hdest : destination i = some rd) (hzero : rd ≠ .zero)
    (hplain : rd ≠ .programCounter) (hresult : resultValue (s.withRegAndPc rd v p) i = some w)
    (hpc : validPC (p + 4) = true) : exec i (s.withRegAndPc rd v p) = .next (s.withRegAndPc rd w (p + 4)) := by
  rw [← s.withRegAndPc_withRegAndPc v p hplain w (p + 4)]
  exact exec_of_plain_result_valid hdest hzero hplain hresult hpc

end WithRegAndPc

/-- A word's low half, sign-extended as a field and zero-extended by `SetILow`, is the word's low half again. -/
theorem setWidth_ofInt_toInt (h : BitVec 16) : (BitVec.ofInt 16 h.toInt).setWidth 32 = (0 : BitVec 16) ++ h := by
  rw [BitVec.ofInt_toInt]
  exact BitVec.setWidth_eq_append (by decide)

theorem halves_or (k : Word) :
    (k.extractLsb' 16 16 ++ (0 : BitVec 16)) ||| ((0 : BitVec 16) ++ k.extractLsb' 0 16) = k := by
  rw [BitVec.or_append]
  simp only [BitVec.ofNat_eq_ofNat, BitVec.or_zero, BitVec.zero_or]
  exact (BitVec.extractLsb'_append_extractLsb'_eq_extractLsb' rfl).trans BitVec.extractLsb'_eq_self

theorem validPC_between {p : Word} (h : validPC p = true) (h12 : validPC (p + 12) = true) :
    validPC (p + 4) = true ∧ validPC (p + 4 + 4) = true ∧ validPC (p + 4 + 4 + 4) = true ∧ p + 4 + 4 + 4 = p + 12 := by
  simp only [validPC_iff_toNat] at h h12 ⊢
  bv_omega

/-- Settles O34: the clear leaves 0 in `rd`, and the two halves are put together with OR, which has no order. -/
theorem clearThenSetBothHalvesLoadsConstant : Obligations.ClearThenSetBothHalvesLoadsConstant := by
  intro rd k s hzero hplain hpc hpc12
  obtain ⟨h4, h8, h12, hsum⟩ := validPC_between hpc hpc12
  have hhigh (v p : Word) (hp : validPC (p + 4) = true) :
      exec (.setIHigh rd (k.extractLsb' 16 16).toInt) (s.withRegAndPc rd v p)
        = .next (s.withRegAndPc rd (v ||| (k.extractLsb' 16 16 ++ (0 : BitVec 16))) (p + 4)) := by
    refine exec_withRegAndPc s v p rfl hzero hplain ?_ hp
    rw [resultValue, BitVec.ofInt_toInt, State.readReg_withRegAndPc s v p hzero hplain]
  have hlow (v p : Word) (hp : validPC (p + 4) = true) :
      exec (.setILow rd (k.extractLsb' 0 16).toInt) (s.withRegAndPc rd v p)
        = .next (s.withRegAndPc rd (v ||| ((0 : BitVec 16) ++ k.extractLsb' 0 16)) (p + 4)) := by
    refine exec_withRegAndPc s v p rfl hzero hplain ?_ hp
    rw [resultValue, setWidth_ofInt_toInt, State.readReg_withRegAndPc s v p hzero hplain]
  have hclear : exec (.addI rd .zero .zero) s = .next (s.withRegAndPc rd 0 (s.pc + 4)) :=
    exec_of_plain_result_valid rfl hzero hplain rfl h4
  refine ⟨_, _, _, _, _, hclear, s.readReg_withRegAndPc _ _ hzero hplain, hhigh _ _ h8, hlow _ _ h12, hlow _ _ h8,
    hhigh _ _ h12, ?value, ?orders, ?pc, s.sameBut_withRegAndPc _ _⟩
  case value =>
    rw [s.readReg_withRegAndPc _ _ hzero hplain, BitVec.or_assoc, halves_or]
    exact BitVec.zero_or
  case orders => rw [BitVec.or_assoc, BitVec.or_assoc, BitVec.or_comm (k.extractLsb' 16 16 ++ _)]
  case pc => exact (State.pc_setReg_pc _ _).trans hsum

end Sys2Proof.Machine

/-! Addresses, fetch and the jumps (spec/20_memory.md R54, R55, R58, spec/43_load_store.md R172, spec/45_control.md). -/

namespace Sys2Proof.Machine

/-! The base-plus-scaled-offset sum. -/

theorem scaledAddress_of_inRange (base : Word) {off : Int} (hlow : -32768 ≤ off) (hhigh : off ≤ 32767) :
    scaledAddress base off = BitVec.ofInt 32 (base.toInt + 4 * off) := by
  rw [scaledAddress, sext32, wrap32, wrap32, BitVec.toInt_ofInt_eq_self (by decide) (by omega) (by omega)]

/-- Four times an offset is a multiple of 4, and so is the wrap's 2^32. -/
theorem scaledAddress_aligned_iff (base : Word) (off : Int) : (scaledAddress base off).toNat % 4 = 0 ↔ base.toNat % 4 = 0 := by
  have hbase := BitVec.toInt_eq_toNat_cond base
  rw [scaledAddress, wrap32, BitVec.toNat_ofInt]
  split at hbase <;> omega

/-- Settles O6: an offset that fits a field is the signed reading of its sign extension, so both addresses are the stated sum. -/
theorem scaledAddressIsBasePlusFourOffsets : Obligations.ScaledAddressIsBasePlusFourOffsets := by
  intro s ra off hlow hhigh
  exact ⟨scaledAddress_of_inRange _ hlow hhigh, scaledAddress_of_inRange _ hlow hhigh, scaledAddress_aligned_iff _ off⟩

/-! The fetch and `HasNext`, over the array that instructions are fetched from. -/

theorem State.instrStore_of_topology {s : State} {m : Memory}
    (h : (s.topology = .unified ∧ m = s.mem) ∨ (s.topology = .segregated ∧ m = s.imem)) : s.instrStore = m := by
  rcases h with ⟨htop, rfl⟩ | ⟨htop, rfl⟩
  · exact State.instrStore_unified htop
  · exact State.instrStore_segregated htop

theorem State.fetchInstruction_of_check_error {s : State} {a : Word} {k : FaultKind}
    (h : s.instrStore.check a = .error k) : s.fetchInstruction a = .error k := by
  rw [State.fetchInstruction, Memory.fetch, h, Except.map]

theorem Memory.fetch_of_accessible {m : Memory} {a : Word} (h : m.accessible a) :
    m.fetch a = .ok ⟨m.readByte a.toNat, m.readByte (a.toNat + 1), m.readByte (a.toNat + 2), m.readByte (a.toNat + 3)⟩ := by
  rw [Memory.fetch, m.check_of_accessible a h, Except.map]

theorem Memory.fetch_succeeds_iff {m : Memory} {a : Word} : (∃ raw, m.fetch a = .ok raw) ↔ m.accessible a := by
  constructor
  · rintro ⟨raw, h⟩
    obtain ⟨_, hcheck⟩ := ok_of_exceptMap_eq_ok h
    exact Memory.accessible_of_check hcheck
  · intro h
    exact ⟨_, Memory.fetch_of_accessible h⟩

theorem Memory.hasNext_eq_true_iff (m : Memory) (a : Word) : m.hasNext a = true ↔ 0 ≤ a.toInt ∧ a.toInt + 4 ≤ m.size := by
  simp only [Memory.hasNext, Bool.and_eq_true, decide_eq_true_eq]

/-- Settles O4: the answer of the check on the topology's array decides between the two faults and the four bytes. -/
theorem fetchReadsTheTopologysArray : Obligations.FetchReadsTheTopologysArray := by
  intro s m a htopology
  have hstore := State.instrStore_of_topology htopology
  refine ⟨?outOfBounds, ?misaligned, ?fetched⟩
  case outOfBounds =>
    intro h
    exact State.fetchInstruction_of_check_error (by rw [hstore]; exact Memory.check_of_outOfBounds h)
  case misaligned =>
    intro h0 h4 haligned
    exact State.fetchInstruction_of_check_error (by rw [hstore]; exact Memory.check_of_misaligned h0 h4 haligned)
  case fetched =>
    intro h0 h4 haligned
    rw [State.fetchInstruction, hstore]
    exact Memory.fetch_of_accessible ⟨h0, h4, haligned⟩

/-- Settles O5: the fetch asks for the bounds and the alignment, and at an aligned address only the bounds are left. -/
theorem hasNextIffFetchable : Obligations.HasNextIffFetchable := by
  intro s m a htopology
  have hstore := State.instrStore_of_topology htopology
  rw [State.hasNextInstruction, State.fetchInstruction, hstore, Memory.hasNext_eq_true_iff]
  refine ⟨Iff.rfl, ?_⟩
  intro haligned
  rw [Memory.fetch_succeeds_iff]
  exact ⟨fun ⟨h0, h4⟩ => ⟨h0, h4, haligned⟩, fun ⟨h0, h4, _⟩ => ⟨h0, h4⟩⟩

/-! The jumps: taken or not, each has its equation, and the two ends have theirs. -/

theorem State.takeJump_of_valid {s : State} {t : Word} (h0 : 0 ≤ t.toInt) (haligned : t.toNat % 4 = 0) :
    ∃ u, s.takeJump t = .next u ∧ u.pc = t ∧ s.SameBut u [.programCounter] := by
  rcases s.takeJump_cases t with ⟨_, hjump⟩ | ⟨hinvalid, _⟩
  · exact ⟨_, hjump, s.pc_setReg_pc t, s.sameBut_setReg _ _ _ (List.mem_singleton_self _)⟩
  · rw [(validPC_eq_true_iff t).mpr ⟨h0, haligned⟩] at hinvalid
    cases hinvalid

theorem State.takeJump_of_invalid {s : State} {t : Word} (h : t.toInt < 0 ∨ t.toNat % 4 ≠ 0) :
    s.takeJump t = .next (s.raise (.illegalPC t)) := by
  rcases s.takeJump_cases t with ⟨hvalid, _⟩ | ⟨_, hjump⟩
  · rw [(validPC_eq_false_iff t).mpr h] at hvalid
    cases hvalid
  · exact hjump

theorem State.skipJump_of_valid {s : State} (h : validPC (s.pc + 4) = true) :
    ∃ u, s.skipJump = .next u ∧ u.pc = s.pc + 4 ∧ s.SameBut u [.programCounter] :=
  ⟨_, s.skipJump_eq, State.advance_moves h⟩

theorem State.skipJump_of_top {s : State} (h : s.pc = 0x7FFFFFFC) :
    s.skipJump = .next (s.raise (.illegalPC 0x80000000)) := by
  rw [s.skipJump_eq, State.advance_of_top h]

section Jumps

variable {s : State} {rc : RegName} (ra : RegName) (off8 : Int)

theorem exec_jumpZero_taken (h : s.readReg rc = 0) : exec (.jumpZero rc ra off8) s = s.takeJump (s.jumpTarget ra off8) := by
  simp [exec, execJumpZero, isZero, h]

theorem exec_jumpZero_skipped (h : s.readReg rc ≠ 0) : exec (.jumpZero rc ra off8) s = s.skipJump := by
  have hcond : isZero (s.readReg rc) = false := beq_eq_false_iff_ne.mpr h
  simp [exec, execJumpZero, hcond]

theorem exec_jumpGT_taken (h : 0 < (s.readReg rc).toInt) :
    exec (.jumpGT rc ra off8) s = s.takeJump (s.jumpTarget ra off8) := by
  simp [exec, execJumpGT, isPositive, h]

theorem exec_jumpGT_skipped (h : (s.readReg rc).toInt ≤ 0) : exec (.jumpGT rc ra off8) s = s.skipJump := by
  simp [exec, execJumpGT, isPositive, h]

end Jumps

/-- Settles O35: `Jump` is always taken. -/
theorem jumpSetsPcOrFaults : Obligations.JumpSetsPcOrFaults := by
  rintro ra off16 s t rfl
  exact ⟨State.takeJump_of_valid, State.takeJump_of_invalid⟩

/-- A conditional jump, by its two conditions: taken it has the two ends of a jump and `pc` plays no part, skipped it has the two
ends of the advance and the target plays no part (R191, R192). -/
theorem conditionalJump_ends {i : Instr} {s : State} {t : Word} {taken skipped : Prop}
    (htaken : taken → exec i s = s.takeJump t) (hskipped : skipped → exec i s = s.skipJump) :
    (taken → 0 ≤ t.toInt → t.toNat % 4 = 0 → ∃ u, exec i s = .next u ∧ u.pc = t ∧ s.SameBut u [.programCounter])
    ∧ (taken → t.toInt < 0 ∨ t.toNat % 4 ≠ 0 → s.RaisesOnly i (.illegalPC t))
    ∧ (skipped → validPC (s.pc + 4) = true → ∃ u, exec i s = .next u ∧ u.pc = s.pc + 4 ∧ s.SameBut u [.programCounter])
    ∧ (skipped → s.pc = 0x7FFFFFFC → s.RaisesOnly i (.illegalPC 0x80000000)) := by
  unfold State.RaisesOnly
  refine ⟨?taken, ?refused, ?skipped, ?top⟩
  case taken =>
    intro hcond
    rw [htaken hcond]
    exact State.takeJump_of_valid
  case refused =>
    intro hcond
    rw [htaken hcond]
    exact State.takeJump_of_invalid
  case skipped =>
    intro hcond
    rw [hskipped hcond]
    exact State.skipJump_of_valid
  case top =>
    intro hcond
    rw [hskipped hcond]
    exact State.skipJump_of_top

/-- Settles O36: the jump is taken where the condition register is 0 and skipped where it is not. -/
theorem jumpZeroTakenIffZero : Obligations.JumpZeroTakenIffZero := by
  rintro rc ra off8 s t rfl
  exact conditionalJump_ends (exec_jumpZero_taken ra off8) (exec_jumpZero_skipped ra off8)

/-- Settles O37: the jump is taken where the condition register is positive and skipped where it is not, by the signed
comparison. -/
theorem jumpGTTakenIffPositive : Obligations.JumpGTTakenIffPositive := by
  rintro rc ra off8 s t rfl
  exact conditionalJump_ends (exec_jumpGT_taken ra off8) (exec_jumpGT_skipped ra off8)

end Sys2Proof.Machine

/-! The interpreter cycle: rules over all instructions and all steps (spec/40_interpreter_cycle.md). -/

namespace Sys2Proof.Machine

/-- Settles O12: a fetch that succeeds passes stage 0, and bytes that decode are run. -/
theorem stepRunsTheDecodedInstruction : Obligations.StepRunsTheDecodedInstruction := by
  intro s raw i hrun hfetch hdecode
  rw [step_of_fetch hrun hfetch, State.runRaw, hdecode]

/-- Settles O38: it is the equation of `End`. -/
theorem endHaltsWithRegister : Obligations.EndHaltsWithRegister := by
  intro rout s
  rfl

theorem step_of_ranOffEnd {s : State} (hrun : s.run = .running) (hmode : s.termMode = .runOffEnd)
    (hnext : s.hasNextInstruction s.pc = false) : step s = .next (s.halt (s.readReg s.resultReg)) := by
  simp [step, hrun, State.runStep, State.ranOffEnd, hmode, hnext]

theorem step_of_fetch_error {s : State} {k : FaultKind} (hrun : s.run = .running) (hmode : s.termMode = .endInstr)
    (hfetch : s.fetchInstruction s.pc = .error k) : step s = .next (s.raise k) := by
  simp [step, hrun, State.runStep, State.ranOffEnd, hmode, State.runStages, hfetch]

/-- Settles O13: a valid `pc` is non-negative and aligned, so the check can only find it past the end. -/
theorem fetchPastTheEndFaults : Obligations.FetchPastTheEndFaults := by
  intro s hrun hpc
  obtain ⟨h0, haligned⟩ := (validPC_eq_true_iff s.pc).mp hpc
  have hpastEnd (h : s.pc.toInt + 4 > s.instrStore.size) :
      s.fetchInstruction s.pc = .error (.memoryOutOfRange s.pc s.instrStore.size) :=
    State.fetchInstruction_of_check_error (Memory.check_of_outOfBounds (.inr h))
  refine ⟨?onlyOutOfRange, ?endInstr, ?runOffEnd⟩
  case onlyOutOfRange =>
    intro k hk
    by_cases h4 : s.pc.toInt + 4 ≤ s.instrStore.size
    · rw [State.fetchInstruction, Memory.fetch_of_accessible ⟨h0, h4, haligned⟩] at hk
      cases hk
    · have h : s.pc.toInt + 4 > s.instrStore.size := by omega
      rw [hpastEnd h] at hk
      cases hk
      exact ⟨rfl, h⟩
  case endInstr =>
    intro hmode h
    exact step_of_fetch_error hrun hmode (hpastEnd h)
  case runOffEnd =>
    intro hmode h
    refine step_of_ranOffEnd hrun hmode ?_
    rw [← Bool.not_eq_true, State.hasNextInstruction, Memory.hasNext_eq_true_iff]
    omega

/-- Settles O14: where there is no next instruction the fetch does not succeed, so `EndInstr` mode can only raise. -/
theorem runOffEndHaltsWithResultRegister : Obligations.RunOffEndHaltsWithResultRegister := by
  intro s hrun hnext
  refine ⟨fun hmode => step_of_ranOffEnd hrun hmode hnext, ?endInstr⟩
  case endInstr =>
    intro hmode t v hstep hhalted
    obtain ⟨_, ⟨hmode', _, _⟩ | ⟨k, rfl⟩ | ⟨raw, _, hfetch, _, _⟩⟩ := step_next_cases hstep
    · rw [hmode] at hmode'
      cases hmode'
    · cases hhalted
    · rw [State.hasNextInstruction_of_fetch hfetch] at hnext
      cases hnext

/-- Settles O16: the step's own ends are next states, and of the instructions only `SysCall` can be left without one. -/
theorem runningStepCompletes : Obligations.RunningStepCompletes := by
  intro s hrun
  rcases step_cases s with ⟨_, hrun', _⟩ | ⟨_, hrun', _⟩ | ⟨_, _, _, hstep⟩ | ⟨_, _, _, hstep⟩
    | ⟨_, _, _, _, _, hstep⟩ | ⟨raw, i, _, hfetch, hdecode, hstep⟩
  · rw [hrun] at hrun'; cases hrun'
  · rw [hrun] at hrun'; cases hrun'
  · exact .inl ⟨_, hstep⟩
  · exact .inl ⟨_, hstep⟩
  · exact .inl ⟨_, hstep⟩
  · rw [hstep]
    by_cases hi : i = .sysCall
    · subst hi
      rcases execSysCall_cases s with ⟨_, _, _, hexec⟩ | ⟨rest, hnever, hexec⟩
      · exact .inl ⟨_, hexec⟩
      · exact .inr ⟨hexec, ⟨rest, hnever⟩, raw, hfetch, hdecode⟩
    · obtain ⟨t, hexec, _⟩ := exec_effect s hi
      exact .inl ⟨t, hexec⟩

/-! What an instruction other than `SysCall` leaves unchanged (spec/10_state.md R27). -/

namespace State.SameButWritesOf

theorem of_sameFixed {s t : State} (i : Instr) (hregs : t.regs = s.regs) (hmem : t.mem = s.mem) (hfixed : s.SameFixed t)
    (hhandler : s.SameHandler t) : s.SameButWritesOf t i :=
  ⟨fun r _ _ => congrArg (RegFile.get · r) hregs, fun b _ => congrArg (Memory.readByte · b) hmem, hfixed, hhandler⟩

/-- A write of `pc` or of the destination. -/
theorem setReg {i : Instr} {rd : RegName} (s : State) (v : Word) (h : rd = .programCounter ∨ destination i = some rd) :
    s.SameButWritesOf (s.setReg rd v) i := by
  refine ⟨fun r hpc hdest => s.readReg_setReg_ne rd r v ?_, fun _ _ => rfl, .refl s, rfl, rfl⟩
  rintro rfl
  exact h.elim hpc hdest

/-- The word written by a store. -/
theorem writeWord {s : State} {r1 ra : RegName} {off8 : Int} {v : Word} {m : Memory}
    (h : s.mem.writeWord (s.effectiveAddress ra off8) v = .ok m) :
    s.SameButWritesOf { s with mem := m } (.storeI r1 ra off8) :=
  ⟨fun _ _ _ => rfl, fun b hb => Memory.readByte_writeWord_ne h b (hb r1 ra off8 rfl),
    (State.KeepsPolicies.writeWord h).fixed, rfl, rfl⟩

theorem advance {s t : State} {i : Instr} (h : s.SameButWritesOf t i) : s.SameButWritesOf t.advance i := by
  obtain ⟨hregs, hmem, hfixed, hruns, hcalls⟩ := h
  obtain ⟨hregs', hmem', hfixed', hruns', hcalls'⟩ := t.advance_frame
  exact ⟨fun r hpc hdest => (hregs' r (by simpa using hpc)).trans (hregs r hpc hdest),
    fun b hb => (congrArg (Memory.readByte · b) hmem').trans (hmem b hb), hfixed.trans hfixed',
    hruns'.trans hruns, hcalls'.trans hcalls⟩

end State.SameButWritesOf

theorem State.Effect.sameButWritesOf {s t : State} {i : Instr} (h : s.Effect i t) : s.SameButWritesOf t i := by
  cases h with
  | raises k => exact .of_sameFixed i rfl rfl (.refl s) ⟨rfl, rfl⟩
  | writes rd v hdest _ _ => exact (SameButWritesOf.setReg s v (.inr hdest)).advance
  | stores r1 ra off8 m hinstr hwrite =>
    subst hinstr
    exact (SameButWritesOf.writeWord hwrite).advance
  | skips => exact (SameButWritesOf.of_sameFixed i rfl rfl (.refl s) ⟨rfl, rfl⟩).advance
  | jumps target _ => exact .setReg s target (.inl rfl)
  | halts rout _ => exact .of_sameFixed i rfl rfl (.refl s) ⟨rfl, rfl⟩

/-- Settles O51: it is the register half of `State.Effect.sameButWritesOf`. -/
theorem onlyDestinationAndPcChange : Obligations.OnlyDestinationAndPcChange := by
  intro i s t hi hexec
  obtain ⟨hregs, _, hfixed, hhandler⟩ := (effect_of_exec hi hexec).sameButWritesOf
  exact ⟨hregs, hfixed, hhandler⟩

/-- Settles O52: it is the memory half of `State.Effect.sameButWritesOf`. -/
theorem onlyStoreIWritesMemory : Obligations.OnlyStoreIWritesMemory := by
  intro i s t b hi hexec hb
  obtain ⟨_, hmem, _, _⟩ := (effect_of_exec hi hexec).sameButWritesOf
  exact hmem b hb

/-- The advance raises from the highest valid `pc` only, and always the same fault (R134, D16). -/
theorem State.faulted_of_advance {s : State} {k : FaultKind} (hrun : s.run = .running) (hpc : validPC s.pc = true)
    (hfault : s.advance.run = .faulted k) : k = .illegalPC 0x80000000 ∧ s.advance.pc = 0x7FFFFFFC := by
  by_cases htop : s.pc = 0x7FFFFFFC
  · rw [State.advance_of_top htop] at hfault ⊢
    cases hfault
    exact ⟨rfl, htop⟩
  · rw [State.advance_of_valid ((validPC_add_four_iff hpc).mpr htop), State.setReg_run, hrun] at hfault
    cases hfault

/-- A fault of an instruction other than `SysCall` is raised before any write, or by the advance (R142, R246). -/
theorem State.Effect.faulted {s t : State} {i : Instr} {k : FaultKind} (h : s.Effect i t) (hrun : s.run = .running)
    (hpc : validPC s.pc = true) (hfault : t.run = .faulted k) :
    t = s.raise k ∨ (k = .illegalPC 0x80000000 ∧ t.pc = 0x7FFFFFFC) := by
  cases h with
  | raises k' =>
    cases hfault
    exact .inl rfl
  | writes rd v _ _ hpc' => exact .inr (State.faulted_of_advance hrun ((KeepsPolicies.setReg s rd v hpc').pc hpc) hfault)
  | stores _ _ _ m _ _ => exact .inr (State.faulted_of_advance (s := { s with mem := m }) hrun hpc hfault)
  | skips => exact .inr (State.faulted_of_advance hrun hpc hfault)
  | jumps target _ =>
    rw [State.setReg_run, hrun] at hfault
    cases hfault
  | halts rout _ => cases hfault

theorem State.Effect.halted {s t : State} {i : Instr} {v : Word} (h : s.Effect i t) (hrun : s.run = .running)
    (hhalted : t.run = .halted v) : ∃ rout, i = .endRun rout ∧ v = s.readReg rout := by
  have no_halt_by_advance {u : State} (hu : u.run = .running) : u.advance.run ≠ .halted v := by
    rcases u.run_advance with hsame | hfault
    · rw [hsame, hu]
      nofun
    · rw [hfault]
      nofun
  cases h with
  | raises k => cases hhalted
  | writes rd w _ _ _ => exact absurd hhalted (no_halt_by_advance hrun)
  | stores _ _ _ m _ _ => exact absurd hhalted (no_halt_by_advance (u := { s with mem := m }) hrun)
  | skips => exact absurd hhalted (no_halt_by_advance hrun)
  | jumps target _ =>
    rw [State.setReg_run, hrun] at hhalted
    cases hhalted
  | halts rout hinstr =>
    cases hhalted
    exact ⟨rout, hinstr, rfl⟩

/-- Settles O53: a fault of the fetch or of the decoder is raised in the state before it; for the decoded instruction it is
`State.Effect.faulted`, with the frame of its effect. -/
theorem faultsArePrecise : Obligations.FaultsArePrecise := by
  intro s t k hpc hnoSysCall hstep hfault
  obtain ⟨hrun, ⟨_, _, rfl⟩ | ⟨k', rfl⟩ | ⟨raw, i, hfetch, hdecode, hexec⟩⟩ := step_next_cases hstep
  · cases hfault
  · cases hfault
    exact .inl rfl
  · have hi : i ≠ .sysCall := by
      rintro rfl
      exact hnoSysCall raw hfetch hdecode
    have heffect := effect_of_exec hi hexec
    exact (heffect.faulted hrun hpc hfault).imp_right fun ⟨hk, htop⟩ =>
      ⟨hk, htop, raw, i, hfetch, hdecode, heffect.sameButWritesOf⟩

/-! The instruction array is no data (spec/20_memory.md R52, R59). -/

/-- The state with another instruction array in its place. -/
def State.withImem (s : State) (m : Memory) : State := { s with imem := m }

/-- The outcome with another instruction array in its next state. -/
def outcomeWithImem (m : Memory) : Host.Outcome State Fault Refusal → Host.Outcome State Fault Refusal
  | .next t => .next (t.withImem m)
  | .fault f => .fault f
  | .refused f => .refused f

section WithImem

variable (s : State) (m : Memory)

@[simp] theorem State.readReg_withImem (r : RegName) : (s.withImem m).readReg r = s.readReg r := rfl

@[simp] theorem State.jumpTarget_withImem (ra : RegName) (off : Int) :
    (s.withImem m).jumpTarget ra off = s.jumpTarget ra off := rfl

theorem State.writeReg_withImem (r : RegName) (v : Word) :
    (s.withImem m).writeReg r v = (s.writeReg r v).map (State.withImem · m) := by
  unfold State.writeReg
  split_ifs <;> rfl

theorem State.writeWord_withImem (a v : Word) :
    (s.withImem m).writeWord a v = (s.writeWord a v).map (State.withImem · m) := by
  have hmem : (s.withImem m).mem = s.mem := rfl
  unfold State.writeWord
  rw [hmem]
  cases s.mem.writeWord a v <;> rfl

theorem State.advance_withImem : (s.withImem m).advance = s.advance.withImem m := by
  have hpc : (s.withImem m).pc = s.pc := rfl
  unfold State.advance
  rw [hpc, State.writeReg_withImem]
  cases s.writeReg .programCounter (wrap32 (s.pc.toInt + 4)) <;> rfl

theorem State.endWithAdvance_withImem (stage3 : Except FaultKind State) :
    (s.withImem m).endWithAdvance (stage3.map (State.withImem · m)) = outcomeWithImem m (s.endWithAdvance stage3) := by
  cases stage3 with
  | error k => rfl
  | ok t => exact congrArg Host.Outcome.next (t.advance_withImem m)

theorem State.takeJump_withImem (t : Word) : (s.withImem m).takeJump t = outcomeWithImem m (s.takeJump t) := by
  unfold State.takeJump
  rw [State.writeReg_withImem]
  cases s.writeReg .programCounter t <;> rfl

theorem State.skipJump_withImem : (s.withImem m).skipJump = outcomeWithImem m s.skipJump :=
  s.endWithAdvance_withImem m (.ok s)

@[simp] theorem State.effectiveAddress_withImem (ra : RegName) (off : Int) :
    (s.withImem m).effectiveAddress ra off = s.effectiveAddress ra off := rfl

@[simp] theorem State.readWord_withImem (a : Word) : (s.withImem m).readWord a = s.readWord a := rfl

theorem State.writeQuotient_withImem (rd : RegName) (n d : Word) :
    (s.withImem m).writeQuotient rd n d = (s.writeQuotient rd n d).map (State.withImem · m) := by
  unfold State.writeQuotient
  split_ifs
  · rfl
  · exact s.writeReg_withImem m rd _

/-- The load reads the mutable array, and only then writes a register. -/
theorem execLoadI_withImem (rd ra : RegName) (off8 : Int) :
    execLoadI rd ra off8 (s.withImem m) = outcomeWithImem m (execLoadI rd ra off8 s) := by
  simp only [execLoadI, State.effectiveAddress_withImem, State.readWord_withImem, ← State.endWithAdvance_withImem]
  cases s.readWord (s.effectiveAddress ra off8) with
  | error k => rfl
  | ok v => exact congrArg (s.withImem m).endWithAdvance (s.writeReg_withImem m rd v)

/-- An instruction other than `SysCall` does the same with another instruction array. -/
theorem exec_withImem {i : Instr} (hi : i ≠ .sysCall) : exec i (s.withImem m) = outcomeWithImem m (exec i s) := by
  cases i with
  | addI | subI | mulI | addN | subN | mulN | setILow | setIHigh =>
    simp only [exec, execAddI, execSubI, execMulI, execAddN, execSubN, execMulN, execSetILow, execSetIHigh,
      State.readReg_withImem, State.writeReg_withImem, State.endWithAdvance_withImem]
  | divI | divN =>
    simp only [exec, execDivI, execDivN, State.readReg_withImem, State.writeQuotient_withImem,
      State.endWithAdvance_withImem]
  | loadI rd ra off8 => exact execLoadI_withImem s m rd ra off8
  | storeI r1 ra off8 =>
    simp only [exec, execStoreI, State.readReg_withImem, State.effectiveAddress_withImem, State.writeWord_withImem,
      State.endWithAdvance_withImem]
  | jump ra off16 => exact s.takeJump_withImem m _
  | jumpZero rc ra off8 =>
    simp only [exec, execJumpZero, State.readReg_withImem, State.jumpTarget_withImem, State.takeJump_withImem,
      State.skipJump_withImem, apply_ite (outcomeWithImem m)]
  | jumpGT rc ra off8 =>
    simp only [exec, execJumpGT, State.readReg_withImem, State.jumpTarget_withImem, State.takeJump_withImem,
      State.skipJump_withImem, apply_ite (outcomeWithImem m)]
  | endRun rout => rfl
  | sysCall => exact absurd rfl hi

end WithImem

/-- Settles O56: exchanging the array before the instruction is exchanging it after. -/
theorem instructionArrayIsNoData : Obligations.InstructionArrayIsNoData := by
  intro i s t m hi hexec
  exact (exec_withImem s m hi).trans (congrArg (outcomeWithImem m) hexec)

end Sys2Proof.Machine

/-! The syscall trap (spec/47_syscall.md): every statement takes the next handler invocation, and `execSysCall_of_nextHandlerRun` says
that it is what runs. -/

namespace Sys2Proof.Machine

/-- The fault kinds a handler's invocation can raise: those of its accesses, of the identifier and of the advance (R214, R216). -/
def FaultKind.OfHandler (k : FaultKind) : Prop := k ≠ .arithmeticFault ∧ ∀ raw a, k ≠ .illegalInstruction raw a

theorem FaultKind.ofHandler_illegalPC (v : Word) : (FaultKind.illegalPC v).OfHandler := ⟨nofun, nofun⟩

theorem Memory.check_error_ofHandler {m : Memory} {a : Word} {k : FaultKind} (h : m.check a = .error k) : k.OfHandler := by
  rcases m.check_cases a with ⟨_, hcheck⟩ | ⟨_, hcheck⟩ | ⟨_, _, _, hcheck⟩
  · rw [hcheck] at h; cases h
  · rw [hcheck] at h; cases h
    exact ⟨nofun, nofun⟩
  · rw [hcheck] at h; cases h
    exact ⟨nofun, nofun⟩

theorem State.writeReg_error_ofHandler {s : State} {r : RegName} {v : Word} {k : FaultKind}
    (h : s.writeReg r v = .error k) : k.OfHandler := by
  rcases s.writeReg_cases r v with ⟨_, hwrite⟩ | ⟨_, _, hwrite⟩ | ⟨_, _, hwrite⟩
  · rw [hwrite] at h; cases h
    exact ⟨nofun, nofun⟩
  · rw [hwrite] at h; cases h
    exact FaultKind.ofHandler_illegalPC v
  · rw [hwrite] at h; cases h

theorem exceptMap_eq_error_iff {ε α β : Type} {x : Except ε α} {f : α → β} {e : ε} :
    x.map f = .error e ↔ x = .error e := by
  cases x <;> simp [Except.map]

theorem State.handlerOp_error_ofHandler {s : State} {op : HandlerOp} {k : FaultKind} (h : s.handlerOp op = .error k) :
    k.OfHandler := by
  cases op with
  | readReg r => cases h
  | writeReg r v => exact State.writeReg_error_ofHandler h
  | readWord a =>
    simp only [State.handlerOp, State.readWord, Memory.readWord, exceptMap_eq_error_iff] at h
    exact Memory.check_error_ofHandler h
  | writeWord a v =>
    simp only [State.handlerOp, State.writeWord, Memory.writeWord, exceptMap_eq_error_iff] at h
    exact Memory.check_error_ofHandler h
  | fetchInstruction a =>
    simp only [State.handlerOp, State.fetchInstruction, Memory.fetch, exceptMap_eq_error_iff] at h
    exact Memory.check_error_ofHandler h
  | hasNextInstruction a => cases h

/-! The accesses in order. -/

theorem State.handlerOps_cons_ok {s t : State} {op : HandlerOp} (h : s.handlerOp op = .ok t) (ops : List HandlerOp) :
    s.handlerOps (op :: ops) = t.handlerOps ops := by
  rw [State.handlerOps, h]

theorem State.handlerOps_cons_error {s : State} {op : HandlerOp} {k : FaultKind} (h : s.handlerOp op = .error k)
    (ops : List HandlerOp) : s.handlerOps (op :: ops) = (s, some k) := by
  rw [State.handlerOps, h]

/-- The accesses after those that do not fault start from the state these leave (R214). -/
theorem State.handlerOps_append {s t : State} {before : List HandlerOp} (h : s.handlerOps before = (t, none))
    (after : List HandlerOp) : s.handlerOps (before ++ after) = t.handlerOps after := by
  induction before generalizing s with
  | nil =>
    cases h
    rfl
  | cons op before ih =>
    cases hop : s.handlerOp op with
    | error k =>
      rw [State.handlerOps_cons_error hop] at h
      cases h
    | ok u =>
      rw [State.handlerOps_cons_ok hop] at h
      rw [List.cons_append, State.handlerOps_cons_ok hop]
      exact ih h

theorem State.handlerOps_fault_ofHandler {s : State} {ops : List HandlerOp} {k : FaultKind}
    (h : (s.handlerOps ops).2 = some k) : k.OfHandler := by
  induction ops generalizing s with
  | nil => cases h
  | cons op ops ih =>
    cases hop : s.handlerOp op with
    | error k' =>
      rw [State.handlerOps_cons_error hop] at h
      cases h
      exact State.handlerOp_error_ofHandler hop
    | ok t =>
      rw [State.handlerOps_cons_ok hop] at h
      exact ih h

/-- A relation that none of the listed accesses breaks is not broken by the list. -/
theorem State.handlerOps_rel_of_mem (R : State → State → Prop) (hrefl : ∀ s, R s s)
    (htrans : ∀ s t u, R s t → R t u → R s u) {ops : List HandlerOp}
    (hop : ∀ op ∈ ops, ∀ s t, s.handlerOp op = .ok t → R s t) (s : State) : R s (s.handlerOps ops).1 := by
  induction ops generalizing s with
  | nil => exact hrefl s
  | cons op ops ih =>
    cases hstep : s.handlerOp op with
    | error k =>
      rw [State.handlerOps_cons_error hstep]
      exact hrefl s
    | ok t =>
      rw [State.handlerOps_cons_ok hstep]
      exact htrans _ _ _ (hop op List.mem_cons_self s t hstep) (ih (fun op' h => hop op' (List.mem_cons_of_mem _ h)) t)

/-- The accesses that can change the register `q` are the writes of `q`. -/
theorem State.readReg_handlerOp {s t : State} {op : HandlerOp} {q : RegName} (hq : ∀ v, op ≠ .writeReg q v)
    (h : s.handlerOp op = .ok t) : t.readReg q = s.readReg q := by
  cases op with
  | readReg | hasNextInstruction =>
    cases h
    rfl
  | readWord | fetchInstruction =>
    obtain ⟨_, _, rfl⟩ := exceptMap_eq_ok_iff.mp h
    rfl
  | writeReg r v =>
    obtain ⟨_, _, rfl⟩ := State.writeReg_ok h
    exact s.readReg_setReg_ne r q v fun hqr => hq v (hqr ▸ rfl)
  | writeWord a v =>
    obtain ⟨m, _, rfl⟩ := State.writeWord_ok h
    rfl

/-- The accesses that can change the byte at `b` are the word writes that cover it. -/
theorem State.readByte_handlerOp {s t : State} {op : HandlerOp} {b : Nat}
    (hb : ∀ a v, op = .writeWord a v → b < a.toNat ∨ a.toNat + 3 < b) (h : s.handlerOp op = .ok t) :
    t.mem.readByte b = s.mem.readByte b := by
  cases op with
  | readReg | hasNextInstruction =>
    cases h
    rfl
  | readWord | fetchInstruction =>
    obtain ⟨_, _, rfl⟩ := exceptMap_eq_ok_iff.mp h
    rfl
  | writeReg r v =>
    obtain ⟨_, _, rfl⟩ := State.writeReg_ok h
    rfl
  | writeWord a v =>
    obtain ⟨m, hm, rfl⟩ := State.writeWord_ok h
    exact Memory.readByte_writeWord_ne hm b (hb a v rfl)

/-! What the end of the invocation adds to the accesses. -/

/-- The end of an invocation writes `pc` and the run state only. -/
theorem State.runHandler_frame (s : State) (r : HandlerRun) :
    (s.handlerOps r.ops).1.SameRegsBut (s.runHandler r) [.programCounter]
      ∧ (s.runHandler r).mem = (s.handlerOps r.ops).1.mem ∧ (s.handlerOps r.ops).1.SameHandler (s.runHandler r) := by
  rcases s.runHandler_cases r with ⟨_, _, hend⟩ | ⟨_, _, hend⟩ | ⟨_, _, hend⟩
  · rw [hend]
    exact ⟨fun _ _ => rfl, rfl, rfl, rfl⟩
  · rw [hend]
    exact ⟨fun _ _ => rfl, rfl, rfl, rfl⟩
  · rw [hend]
    obtain ⟨hregs, hmem, _, hhandler⟩ := (s.handlerOps r.ops).1.advance_frame
    exact ⟨hregs, hmem, hhandler⟩

theorem State.runHandler_sameHandler (s : State) (r : HandlerRun) : s.SameHandler (s.runHandler r) := by
  obtain ⟨_, ⟨hruns, hcalls⟩, _⟩ := s.handlerOps_keeps r.ops
  obtain ⟨_, _, hruns', hcalls'⟩ := s.runHandler_frame r
  exact ⟨hruns'.trans hruns, hcalls'.trans hcalls⟩

/-- An invocation leaves the run state alone, or ends in a fault that is one of its own. -/
theorem State.run_runHandler (s : State) (r : HandlerRun) :
    (s.runHandler r).run = s.run ∨ ∃ k, (s.runHandler r).run = .faulted k ∧ k.OfHandler := by
  obtain ⟨_, _, hrun⟩ := s.handlerOps_keeps r.ops
  rcases s.runHandler_cases r with ⟨k, hfault, hend⟩ | ⟨_, _, hend⟩ | ⟨_, _, hend⟩
  · exact .inr ⟨k, by rw [hend]; rfl, State.handlerOps_fault_ofHandler hfault⟩
  · exact .inr ⟨.unknownSysCall (s.readReg .call1), by rw [hend]; rfl, nofun, nofun⟩
  · rw [hend]
    rcases (s.handlerOps r.ops).1.run_advance with hsame | hfault
    · exact .inl (hsame.trans hrun)
    · exact .inr ⟨_, hfault, FaultKind.ofHandler_illegalPC _⟩

/-- Settles O45: the accesses keep the policies, and the end of the invocation adds `pc` and the run state. -/
theorem sysCallKeepsThePolicies : Obligations.SysCallKeepsThePolicies := by
  intro s u hexec
  have hpolicies := execSysCall_keepsPolicies hexec
  obtain ⟨r, rest, _, rfl⟩ := nextHandlerRun_of_execSysCall hexec
  obtain ⟨_, hcalls⟩ := (s.nextInvocation rest).runHandler_sameHandler r
  exact ⟨hpolicies.fixed, hpolicies.pc, hpolicies.mem, hcalls, (s.nextInvocation rest).run_runHandler r⟩

/-- Settles O54: a halt past the end is stage 0's; of the instructions, `SysCall` never halts, and `State.Effect` has one halt. -/
theorem haltedOnlyByEndOrRunOffEnd : Obligations.HaltedOnlyByEndOrRunOffEnd := by
  intro s t v hstep hhalted
  obtain ⟨hrun, ⟨hmode, hnext, rfl⟩ | ⟨k, rfl⟩ | ⟨raw, i, hfetch, hdecode, hexec⟩⟩ := step_next_cases hstep
  · cases hhalted
    exact .inl ⟨hmode, hnext, rfl⟩
  · cases hhalted
  · refine .inr ?_
    by_cases hi : i = .sysCall
    · subst hi
      obtain ⟨_, _, _, _, hsame | ⟨k, hfault, _⟩⟩ := sysCallKeepsThePolicies s t hexec
      · rw [hhalted, hrun] at hsame
        cases hsame
      · rw [hhalted] at hfault
        cases hfault
    · obtain ⟨rout, rfl, hv⟩ := (effect_of_exec hi hexec).halted hrun hhalted
      exact ⟨raw, rout, hfetch, hdecode, hv⟩

/-- Settles O41: no access but a write of a register or a covering word write changes it, and the end of the invocation changes
`pc` only. -/
theorem handlerWritesOnlyWhatItAccesses : Obligations.HandlerWritesOnlyWhatItAccesses := by
  intro s u r rest hnext hexec
  cases (execSysCall_of_nextHandlerRun hnext).symm.trans hexec
  obtain ⟨hregs, hmem, _⟩ := (s.nextInvocation rest).runHandler_frame r
  refine ⟨?register, ?byte, ((s.nextInvocation rest).runHandler_sameHandler r).1⟩
  case register =>
    intro q hpc hq
    refine (hregs q (by simpa using hpc)).trans ?_
    refine State.handlerOps_rel_of_mem (fun s t => t.readReg q = s.readReg q) (fun _ => rfl) (fun _ _ _ h1 h2 => h2.trans h1)
      ?_ (s.nextInvocation rest)
    intro op hop _ _
    exact State.readReg_handlerOp fun v h => hq v (h ▸ hop)
  case byte =>
    intro b hb
    rw [hmem]
    refine State.handlerOps_rel_of_mem (fun s t => t.mem.readByte b = s.mem.readByte b) (fun _ => rfl)
      (fun _ _ _ h1 h2 => h2.trans h1) ?_ (s.nextInvocation rest)
    intro op hop _ _
    exact State.readByte_handlerOp fun a v h => hb a v (h ▸ hop)

/-! The ways an invocation ends. -/

theorem State.runHandler_of_returns {s t : State} {r : HandlerRun} (hend : r.ending = .returns)
    (hops : s.handlerOps r.ops = (t, none)) : s.runHandler r = t.advance := by
  rw [State.runHandler, hops, hend]

theorem State.runHandler_of_unknown {s t : State} {r : HandlerRun} (hend : r.ending = .unknownSysCall)
    (hops : s.handlerOps r.ops = (t, none)) : s.runHandler r = t.raise (.unknownSysCall (s.readReg .call1)) := by
  rw [State.runHandler, hops, hend]

theorem State.runHandler_of_fault {s t : State} {r : HandlerRun} {k : FaultKind}
    (hops : s.handlerOps r.ops = (t, some k)) : s.runHandler r = t.raise k := by
  rw [State.runHandler, hops]

/-- Settles O39: the invocation returns in `t`, and the advance has its two ends. -/
theorem sysCallReturnThenAdvances : Obligations.SysCallReturnThenAdvances := by
  intro s t r rest hnext hend hops
  have hexec : exec .sysCall s = .next t.advance := by
    rw [← State.runHandler_of_returns hend hops]
    exact execSysCall_of_nextHandlerRun hnext
  refine ⟨fun hpc => ⟨_, hexec, State.advance_moves hpc⟩, ?top⟩
  case top =>
    intro htop
    rw [hexec, State.advance_of_top htop]
    rfl

/-- Settles O40: with no access the handler returns in the state it began in. -/
theorem sysCallIdleHandlerOnlyAdvances : Obligations.SysCallIdleHandlerOnlyAdvances := by
  intro s rest hnext hpc
  obtain ⟨hadvances, _⟩ := sysCallReturnThenAdvances s (s.nextInvocation rest) _ rest hnext rfl rfl
  obtain ⟨u, hexec, hu, hregs, hmem, hfixed, ⟨hruns, _⟩, hrun⟩ := hadvances hpc
  exact ⟨u, hexec, hu, hregs, hmem, hfixed, hrun, hruns⟩

/-- Settles O42: it is the end of an invocation that does not recognise the identifier. -/
theorem unknownSysCallFaultsWithCall1 : Obligations.UnknownSysCallFaultsWithCall1 := by
  intro s t r rest hnext hend hops
  refine (execSysCall_of_nextHandlerRun hnext).trans ?_
  rw [State.runHandler_of_unknown hend hops]
  rfl

/-- Settles O43: the accesses before the faulting one leave `t`, and its fault ends the list there. -/
theorem handlerFaultKeepsEarlierWrites : Obligations.HandlerFaultKeepsEarlierWrites := by
  intro s t before after op k ending rest hnext hbefore hfault
  have hops : (s.nextInvocation rest).handlerOps (before ++ op :: after) = (t, some k) := by
    rw [State.handlerOps_append hbefore, State.handlerOps_cons_error hfault]
  refine (execSysCall_of_nextHandlerRun hnext).trans ?_
  rw [State.runHandler_of_fault hops]
  rfl

/-- Settles O44: it is the equation of `SysCall` for a handler that hangs. -/
theorem sysCallNeverReturningHasNoNextState : Obligations.SysCallNeverReturningHasNoNextState := by
  intro s rest hnever
  rw [exec, execSysCall, hnever]

/-! The reference console handler (R220). -/

theorem isAscii_eq_true_iff (c : Word) : isAscii c = true ↔ 0 ≤ c.toInt ∧ c.toInt ≤ 127 := by
  simp only [isAscii, Bool.and_eq_true, decide_eq_true_eq]

/-- The status `H_console` reports in `Call4`. -/
def consoleStatus (c : Word) : Word := if isAscii c then 0 else 1

theorem consoleStatus_of_ascii {c : Word} (h0 : 0 ≤ c.toInt) (h127 : c.toInt ≤ 127) : consoleStatus c = 0 :=
  if_pos ((isAscii_eq_true_iff c).mpr ⟨h0, h127⟩)

theorem consoleStatus_of_other {c : Word} (h : c.toInt < 0 ∨ 127 < c.toInt) : consoleStatus c = 1 := by
  refine if_neg fun hascii => ?_
  obtain ⟨h0, h127⟩ := (isAscii_eq_true_iff c).mp hascii
  omega

theorem consoleRun_of_write {x : RegName → Word} (h : x .call1 = 1) :
    consoleRun x = ⟨[.readReg .call1, .readReg .call2, .writeReg .call4 (consoleStatus (x .call2))], .returns⟩ :=
  if_pos h

theorem consoleRun_of_unknown {x : RegName → Word} (h : x .call1 ≠ 1) :
    consoleRun x = ⟨[.readReg .call1], .unknownSysCall⟩ := if_neg h

/-- Settles O46: the known identifier is a return after one register write, any other is not recognised. -/
theorem consoleHandlerReportsStatusInCall4 : Obligations.ConsoleHandlerReportsStatusInCall4 := by
  intro s rest hnext hpc
  refine ⟨?known, ?unknown⟩
  case known =>
    intro hid
    rw [consoleRun_of_write hid] at hnext
    obtain ⟨hadvances, _⟩ := sysCallReturnThenAdvances s
      ((s.nextInvocation rest).setReg .call4 (consoleStatus (s.readReg .call2))) _ rest hnext rfl rfl
    obtain ⟨u, hexec, hu, hregs, hmem, hfixed, _, hrun⟩ := hadvances hpc
    have hstatus : u.readReg .call4 = consoleStatus (s.readReg .call2) := hregs .call4 (by simp)
    refine ⟨u, hexec, hu, ?_, hmem, hfixed, hrun, ?_, ?_⟩
    · intro q hq
      simp only [List.mem_cons, List.not_mem_nil, or_false, not_or] at hq
      obtain ⟨hcall4, hpc'⟩ := hq
      exact (hregs q (by simpa using hpc')).trans (State.readReg_setReg_ne _ _ _ _ hcall4)
    · intro h0 h127
      rw [hstatus, consoleStatus_of_ascii h0 h127]
    · intro h
      rw [hstatus, consoleStatus_of_other h]
  case unknown =>
    intro hid
    rw [consoleRun_of_unknown hid] at hnext
    exact ⟨_, unknownSysCallFaultsWithCall1 s (s.nextInvocation rest) _ rest hnext rfl rfl, rfl, fun _ _ => rfl,
      ⟨rfl, fun _ => rfl⟩, .refl s⟩

end Sys2Proof.Machine

/-! Termination and the run interface (spec/10_state.md R35, spec/40_interpreter_cycle.md R140). -/

namespace Sys2Proof.Machine

theorem run_eq_running_of_step {s t : State} (h : step s = .next t) : s.run = .running := (step_next_cases h).1

/-- A step without an end hangs the run (spec/47_syscall.md R218). -/
theorem State.interpret_succ_of_fault {s : State} {f : Fault} (hrun : s.run = .running) (hstep : step s = .fault f) (n : Nat) :
    State.interpret (n + 1) s = .hung s := by
  rw [State.interpret, State.runReturn_eq_none.mpr hrun]
  simp only [hstep]

theorem State.interprets_self {s : State} {r : RunReturn} (h : s.runReturn = some r) : s.Interprets r s :=
  ⟨0, State.interpret_of_runReturn h 0⟩

theorem State.runReturn_of_interprets {s t : State} {r : RunReturn} (h : s.Interprets r t) : t.runReturn = some r := by
  obtain ⟨_, hbound⟩ := h
  exact State.interpret_returned hbound

theorem State.interprets_iff_of_step {s t : State} (hrun : s.run = .running) (hstep : step s = .next t) (r : RunReturn)
    (u : State) : s.Interprets r u ↔ t.Interprets r u := by
  constructor
  · rintro ⟨bound, hbound⟩
    cases bound with
    | zero =>
      rw [State.interpret_zero_of_running hrun] at hbound
      cases hbound
    | succ n => exact ⟨n, by rwa [State.interpret_succ_of_next hrun hstep] at hbound⟩
  · rintro ⟨n, hn⟩
    exact ⟨n + 1, by rwa [State.interpret_succ_of_next hrun hstep]⟩

/-- Two bounds that let the run return are both below their sum, where it returns one thing. -/
theorem State.interprets_unique {s t t' : State} {r r' : RunReturn} (h : s.Interprets r t) (h' : s.Interprets r' t') :
    r = r' ∧ t = t' := by
  obtain ⟨n, hn⟩ := h
  obtain ⟨m, hm⟩ := h'
  have hsum := State.interpret_returned_add hn m
  have hsum' := State.interpret_returned_add hm n
  rw [Nat.add_comm, hsum] at hsum'
  cases hsum'
  exact ⟨rfl, rfl⟩

theorem State.not_interprets_of_step_fault {s : State} {f : Fault} (hrun : s.run = .running) (hstep : step s = .fault f)
    (r : RunReturn) (t : State) : ¬ s.Interprets r t := by
  rintro ⟨bound, hbound⟩
  cases bound with
  | zero =>
    rw [State.interpret_zero_of_running hrun] at hbound
    cases hbound
  | succ n =>
    rw [State.interpret_succ_of_fault hrun hstep] at hbound
    cases hbound

/-- Settles O15: one lemma about the run interface for each clause; the hang is a step that answers `fault`. -/
theorem noStepAppliesAfterTermination : Obligations.NoStepAppliesAfterTermination := by
  refine ⟨?terminal, ?halted, ?faulted, ?stepped, ?result, ?fault, ?unique, ?hang⟩
  case terminal =>
    intro s hrun t hstep
    exact hrun (run_eq_running_of_step hstep)
  case halted =>
    intro s v hrun
    exact State.interprets_self (State.runReturn_eq_result.mpr hrun)
  case faulted =>
    intro s k hrun
    exact State.interprets_self (State.runReturn_eq_fault.mpr hrun)
  case stepped =>
    intro s t u r hrun hstep
    exact State.interprets_iff_of_step hrun hstep r u
  case result =>
    intro s t v h
    exact State.runReturn_eq_result.mp (State.runReturn_of_interprets h)
  case fault =>
    intro s t k h
    exact State.runReturn_eq_fault.mp (State.runReturn_of_interprets h)
  case unique =>
    intro s t t' r r' h h'
    exact State.interprets_unique h h'
  case hang =>
    intro s t r rest raw hrun hfetch hdecode hnever
    have hstep : step s = .fault .handlerNeverReturns :=
      (stepRunsTheDecodedInstruction s raw _ hrun hfetch hdecode).trans (sysCallNeverReturningHasNoNextState s rest hnever)
    exact State.not_interprets_of_step_fault hrun hstep r t

end Sys2Proof.Machine

/-! Construction and reset (spec/70_reset_and_hazards.md R280, U14 of spec/93_implementation_defined.md). -/

namespace Sys2Proof.Machine

theorem constructMem_eq_ok_iff {p : Params} {m : Memory} : constructMem p = .ok m ↔ p.memSize ≤ Config.maxSize
    ∧ ((p.memInit = none ∧ m = ⟨p.memSize, []⟩)
      ∨ ∃ bs, p.memInit = some bs ∧ bs.length = p.memSize ∧ m = Memory.ofBytes bs) := by
  unfold constructMem
  by_cases hsize : p.memSize ≤ Config.maxSize
  · rw [if_neg (by omega)]
    cases p.memInit with
    | none => simp [hsize, eq_comm]
    | some bs =>
      by_cases hlen : bs.length = p.memSize
      · simp [hsize, hlen, eq_comm]
      · simp [hlen]
  · rw [if_pos (by omega)]
    simp [hsize]

theorem constructImem_eq_ok_iff {p : Params} {m : Memory} : constructImem p = .ok m ↔
    (p.topology = .unified ∧ p.imem = none ∧ m = Memory.empty)
    ∨ (p.topology = .segregated ∧ ∃ bs, p.imem = some bs ∧ bs.length ≤ Config.maxSize ∧ m = Memory.ofBytes bs) := by
  unfold constructImem
  cases p.topology with
  | unified => cases p.imem <;> simp [eq_comm]
  | segregated =>
    cases p.imem with
    | none => simp
    | some bs =>
      by_cases hlen : bs.length ≤ Config.maxSize
      · simp [hlen, Nat.not_lt.mpr hlen, eq_comm]
      · simp [hlen, Nat.lt_of_not_le hlen]

theorem construct_succeeds_iff (p : Params) :
    (∃ s, State.construct p = .ok s) ↔ (∃ m, constructMem p = .ok m) ∧ ∃ m, constructImem p = .ok m := by
  simp only [State.construct, exceptBind_eq_ok_iff, exceptMap_eq_ok_iff]
  constructor
  · rintro ⟨_, mem, hmem, imem, himem, _⟩
    exact ⟨⟨mem, hmem⟩, imem, himem⟩
  · rintro ⟨⟨mem, hmem⟩, imem, himem⟩
    exact ⟨_, mem, hmem, imem, himem, rfl⟩

theorem constructMem_succeeds_iff (p : Params) :
    (∃ m, constructMem p = .ok m) ↔ p.memSize ≤ 2147483647 ∧ ∀ bs, p.memInit = some bs → bs.length = p.memSize := by
  simp only [constructMem_eq_ok_iff, exists_and_left, Config.maxSize]
  cases p.memInit <;> simp

theorem constructImem_succeeds_iff (p : Params) :
    (∃ m, constructImem p = .ok m) ↔ (p.topology = .unified → p.imem = none)
      ∧ (p.topology = .segregated → ∃ bs, p.imem = some bs ∧ bs.length ≤ 2147483647) := by
  simp only [constructImem_eq_ok_iff, Config.maxSize]
  cases p.topology <;> simp

/-- Settles O58: construction succeeds where its two arrays do, and each array has its own limits. -/
theorem constructionAcceptsLegalParametersOnly : Obligations.ConstructionAcceptsLegalParametersOnly := by
  intro p
  rw [construct_succeeds_iff, constructMem_succeeds_iff, constructImem_succeeds_iff, and_assoc]

/-! The two arrays of a construction. -/

theorem constructMem_spec {p : Params} {m : Memory} (h : constructMem p = .ok m) :
    m.size = p.memSize ∧ (∀ b, m.readByte b = (p.memInit.getD []).getD b 0) ∧ m.wf = true := by
  obtain ⟨hsize, ⟨hinit, rfl⟩ | ⟨bs, hinit, hlen, rfl⟩⟩ := constructMem_eq_ok_iff.mp h
  · exact ⟨rfl, fun b => by rw [hinit]; rfl, by simp [Memory.wf, cellsWf, hsize]⟩
  · exact ⟨hlen, fun b => by rw [hinit]; exact Memory.readByte_ofBytes bs b, Memory.wf_ofBytes bs (by omega)⟩

theorem constructImem_spec {p : Params} {m : Memory} (h : constructImem p = .ok m) :
    m.size = (p.imem.getD []).length ∧ (∀ b, m.readByte b = (p.imem.getD []).getD b 0) ∧ m.wf = true
      ∧ (p.topology = .unified → m = Memory.empty) := by
  rcases constructImem_eq_ok_iff.mp h with ⟨_, himem, rfl⟩ | ⟨htop, bs, himem, hlen, rfl⟩
  · exact ⟨by rw [himem]; rfl, fun b => by rw [himem]; rfl, rfl, fun _ => rfl⟩
  · refine ⟨by rw [himem]; rfl, fun b => by rw [himem]; exact Memory.readByte_ofBytes bs b, Memory.wf_ofBytes bs hlen, ?_⟩
    intro hunified
    rw [htop] at hunified
    cases hunified

/-- Settles O57: the arrays are the ones of `constructMem_spec` and `constructImem_spec`, and every other field is as written in
`State.construct`. -/
theorem constructionGivesTheResetState : Obligations.ConstructionGivesTheResetState := by
  intro p s hconstruct
  simp only [State.construct, exceptBind_eq_ok_iff, exceptMap_eq_ok_iff] at hconstruct
  obtain ⟨mem, hmem, imem, himem, rfl⟩ := hconstruct
  obtain ⟨hsize, hbytes, hwf⟩ := constructMem_spec hmem
  obtain ⟨hisize, hibytes, hiwf, hunified⟩ := constructImem_spec himem
  exact ⟨fun r => by cases r <;> rfl, rfl, rfl, rfl, rfl, hsize, hbytes, hisize, hibytes, hwf, hiwf, rfl, hunified⟩

/-- Settles O59: the reset state is the construction for the parameters of `paramsAtReset`. -/
theorem resetSatisfiesTheInvariant : Obligations.ResetSatisfiesTheInvariant := by
  have hconstruct : State.construct paramsAtReset = .ok State.reset := by decide
  obtain ⟨hregs, hrun, _, _, _, _, _, _, _, hinv⟩ := constructionGivesTheResetState _ _ hconstruct
  exact ⟨hinv, hregs, hrun⟩

end Sys2Proof.Machine
